-- ==== Sys2Proof/Config.lean ====
section
/-!
DEFINITION. What the spec leaves to the implementation.
-/

namespace Sys2Proof

/-- `PROG_CAP` (00_scope.md R9, D22, I8): the most words the instruction store holds.
The spec leaves it OPEN, so it is a constant without a body.
DESIGN CHOICE (log 1): safe, since a program longer than it stops the model. -/
opaque Config.progCap : Nat

end Sys2Proof
end

