-- ==== Sys2Proof/Word.lean ====
section
/-!
DEFINITION. The widths of the block's values and the small closed sets of names an instruction is made of.
-/

namespace Sys2Proof

/-- The value of a general register or an immediate: unsigned, 16 bits (10_state.md R14, 00_scope.md R9). -/
abbrev Word := BitVec 16

/-- An instruction word: 24 bits (30_encoding.md R36). -/
abbrev InstrWord := BitVec 24

/-- The four general registers, none hard-wired, no others (10_state.md R13, R15, R16). -/
inductive Reg where
  | ax | bx | cx | dx
  deriving DecidableEq, Repr

/-- The three operations of the opcode field (30_encoding.md R37). -/
inductive Op where
  | mov | add | sub
  deriving DecidableEq, Repr

/-- What the operand multiplexer chooses between: a register (`s = 0`) or the immediate (`s = 1`) (R39, R55). -/
inductive Source where
  | reg (rs : Reg)
  | imm (imm16 : Word)
  deriving DecidableEq, Repr

/-- The five fault causes (60_exceptions.md R75). -/
inductive Cause where
  | malformedInstruction
  | unknownInstruction
  | unknownRegister
  | invalidImmediate
  | invalidDestination
  deriving DecidableEq, Repr

end Sys2Proof
end

