-- ==== Sys2Proof/Syntax.lean ====
section
/-!
DEFINITION. The instructions: one constructor for each row of spec/opcode_table.json.
A constructor holds the fields the instruction uses; the fields R40 says are ignored are not part of it.
-/

namespace Sys2Proof

/-- An instruction of the block (30_encoding.md R36 to R41). -/
inductive Instr where
  /-- `MOV rd rs` (R57). -/
  | movRR (rd rs : Reg)
  /-- `MOV rd #imm` (R57). -/
  | movRI (rd : Reg) (imm16 : Word)
  /-- `ADD rd rs` (R58). -/
  | addRR (rd rs : Reg)
  /-- `ADD rd #imm` (R58). -/
  | addRI (rd : Reg) (imm16 : Word)
  /-- `SUB rd rs` (R59). -/
  | subRR (rd rs : Reg)
  /-- `SUB rd #imm` (R59). -/
  | subRI (rd : Reg) (imm16 : Word)
  /-- An ILLEGAL word with its 3-bit cause field (R41, R60). -/
  | illegal (cause : BitVec 3)
  deriving DecidableEq, Repr

end Sys2Proof
end

