-- ==== Sys2Proof/WellFormed.lean ====
section
/-!
DEFINITION. What is well formed.
Every term of `Instr` is an instruction, because its types carry the field widths (R38, R39, R41);
the checks that can refuse are that of a number taken as a word, and that of a program against the store.
-/

namespace Sys2Proof

/-- Every value of every field names something (R38 for registers, R39 for immediates, R41 for causes),
so every instruction is well formed (R43: no encoding is reserved). -/
def Instr.wellFormed : Instr → Bool
  | .movRR _ _ => true
  | .movRI _ _ => true
  | .addRR _ _ => true
  | .addRI _ _ => true
  | .subRR _ _ => true
  | .subRI _ _ => true
  | .illegal _ => true

/-- A number is a word's value when it fits 24 bits (R36). -/
def isWordValue (n : Nat) : Bool := decide (n < 2 ^ 24)

/-- A program fits an instruction store that holds `cap` words (20_memory.md R26, D22). -/
def programFits (cap : Nat) (ws : List InstrWord) : Bool := decide (ws.length ≤ cap)

end Sys2Proof
end

