-- ==== Sys2Proof/Decode.lean ====
section
/-!
DEFINITION. The binary decoder of 30_encoding.md section 1, and after it the encoder, from the same layout.
Bits are numbered from 0 at the least significant end (00_scope.md R10).
-/

namespace Sys2Proof

/-- Index of a register (10_state.md R13, R38). -/
def Reg.index : Reg → BitVec 2
  | .ax => 0b00#2
  | .bx => 0b01#2
  | .cx => 0b10#2
  | .dx => 0b11#2

/-- The register of an index: all four values are registers (R38). -/
def Reg.ofIndex (i : BitVec 2) : Reg :=
  if i = 0b00#2 then .ax else if i = 0b01#2 then .bx else if i = 0b10#2 then .cx else .dx

/-- Value of the opcode field (R37). -/
def Op.code : Op → BitVec 2
  | .mov => 0b00#2
  | .add => 0b01#2
  | .sub => 0b10#2

/-- The operation an opcode field selects; `0b11` selects none (R37). -/
def Op.ofCode (c : BitVec 2) : Option Op :=
  if c = 0b00#2 then some .mov else if c = 0b01#2 then some .add else if c = 0b10#2 then some .sub else none

/-- Numeric code of a cause (60_exceptions.md R75). -/
def Cause.code : Cause → BitVec 3
  | .malformedInstruction => 1#3
  | .unknownInstruction => 2#3
  | .unknownRegister => 3#3
  | .invalidImmediate => 4#3
  | .invalidDestination => 5#3

/-- The instruction of an operation, a destination and a source: the register form or the immediate form (R36). -/
def Instr.ofParts (op : Op) (rd : Reg) (src : Source) : Instr :=
  match op, src with
  | .mov, .reg rs => .movRR rd rs
  | .mov, .imm v => .movRI rd v
  | .add, .reg rs => .addRR rd rs
  | .add, .imm v => .addRI rd v
  | .sub, .reg rs => .subRR rd rs
  | .sub, .imm v => .subRI rd v

/-! ### Fields of a word (R36) -/

/-- `op`, bits 23:22. -/
def opField (w : InstrWord) : BitVec 2 := w.extractLsb' 22 2

/-- `rd`, bits 21:20. -/
def rdField (w : InstrWord) : BitVec 2 := w.extractLsb' 20 2

/-- `s`, bit 19. -/
def sField (w : InstrWord) : BitVec 1 := w.extractLsb' 19 1

/-- `rs`, bits 18:17. -/
def rsField (w : InstrWord) : BitVec 2 := w.extractLsb' 17 2

/-- `z`, bit 16. -/
def zField (w : InstrWord) : BitVec 1 := w.extractLsb' 16 1

/-- `imm16`, bits 15:0. -/
def immField (w : InstrWord) : Word := w.extractLsb' 0 16

/-- `cause`, bits 2:0 of an ILLEGAL word (R41). -/
def causeField (w : InstrWord) : BitVec 3 := w.extractLsb' 0 3

/-! ### Decoder -/

/-- The source operand a word names (R39): `imm16` when `s = 1`, else the register `rs`. -/
def sourceOf (w : InstrWord) : Source :=
  if sField w = 1#1 then .imm (immField w) else .reg (Reg.ofIndex (rsField w))

/-- The decoder (R36 to R43): total, since every word decodes; `op = 0b11` is an ILLEGAL word.
It does not look at the fields R40 lists as ignored. -/
def decode (w : InstrWord) : Instr :=
  match Op.ofCode (opField w) with
  | some op => Instr.ofParts op (Reg.ofIndex (rdField w)) (sourceOf w)
  | none => .illegal (causeField w)

/-- Why a number is not decoded. -/
inductive DecodeReject where
  /-- The number needs more than 24 bits, so it is no word (R36, R42). DESIGN CHOICE (log 7), safe. -/
  | widerThanAWord
  deriving DecidableEq, Repr

/-- The decoder on a word given as a number: total, rejecting by name what is no word. -/
def decodeNumber (n : Nat) : Except DecodeReject Instr :=
  if isWordValue n then .ok (decode (BitVec.ofNat 24 n)) else .error .widerThanAWord

/-- The word of a row of spec/opcode_table.json: the bits at and above `nbits` are 0 (log 7). -/
def tableWord (nbits w : Nat) : InstrWord := BitVec.ofNat 24 (w % 2 ^ nbits)

/-- The instruction the decoder reads from the `nbits`-bit number `w` of the opcode table; `none` where it rejects. -/
def decodeTableWord (nbits w : Nat) : Option Instr :=
  match decodeNumber (w % 2 ^ nbits) with
  | .ok i => some i
  | .error _ => none

/-! ### Encoder -/

/-- R36: `word = op << 22 | rd << 20 | s << 19 | rs << 17 | z << 16 | imm16`. -/
def packFields (op rd : BitVec 2) (s : BitVec 1) (rs : BitVec 2) (z : BitVec 1) (imm16 : Word) : InstrWord :=
  op.setWidth 24 <<< 22 ||| rd.setWidth 24 <<< 20 ||| s.setWidth 24 <<< 19 ||| rs.setWidth 24 <<< 17 |||
    z.setWidth 24 <<< 16 ||| imm16.setWidth 24

/-- The canonical word of an operation, a destination and a source: zero in every ignored field (R40). -/
def encodeParts (op : Op) (rd : Reg) (src : Source) : InstrWord :=
  match src with
  | .reg rs => packFields op.code rd.index 0#1 rs.index 0#1 0#16
  | .imm v => packFields op.code rd.index 1#1 0#2 0#1 v

/-- The ILLEGAL word of a cause field, bits 21:3 zero: `0xC00000 | cause` (R41, R51). -/
def encodeIllegal (cause : BitVec 3) : InstrWord := packFields 0b11#2 0#2 0#1 0#2 0#1 (cause.setWidth 16)

/-- The encoder: the canonical word of an instruction (R40). -/
def encode : Instr → InstrWord
  | .movRR rd rs => encodeParts .mov rd (.reg rs)
  | .movRI rd v => encodeParts .mov rd (.imm v)
  | .addRR rd rs => encodeParts .add rd (.reg rs)
  | .addRI rd v => encodeParts .add rd (.imm v)
  | .subRR rd rs => encodeParts .sub rd (.reg rs)
  | .subRI rd v => encodeParts .sub rd (.imm v)
  | .illegal c => encodeIllegal c

/-- A word with every field R40 calls ignored set to zero. -/
def canonicalWord (w : InstrWord) : InstrWord :=
  if opField w = 0b11#2 then w &&& 0xC00007#24
  else if sField w = 1#1 then w &&& 0xF8FFFF#24
  else w &&& 0xFE0000#24

/-! ### The rows of the opcode table -/

/-- One row: the bits an instruction fixes (`mask`) and their values (`bits`). -/
structure TableRow where
  mask : InstrWord
  bits : InstrWord
  deriving DecidableEq, Repr

/-- A word has the bits a row fixes. -/
def TableRow.has (r : TableRow) (w : InstrWord) : Bool := w &&& r.mask == r.bits

/-- The row of an instruction, as spec/opcode_table.json gives it (`mask` and `match`). -/
def Instr.row : Instr → TableRow
  | .movRR _ _ => ⟨0xC80000#24, 0x000000#24⟩
  | .movRI _ _ => ⟨0xC80000#24, 0x080000#24⟩
  | .addRR _ _ => ⟨0xC80000#24, 0x400000#24⟩
  | .addRI _ _ => ⟨0xC80000#24, 0x480000#24⟩
  | .subRR _ _ => ⟨0xC80000#24, 0x800000#24⟩
  | .subRI _ _ => ⟨0xC80000#24, 0x880000#24⟩
  | .illegal _ => ⟨0xC00000#24, 0xC00000#24⟩

/-- The seven rows, in the table's order. -/
def opcodeTable : List TableRow :=
  [⟨0xC80000#24, 0x000000#24⟩, ⟨0xC80000#24, 0x080000#24⟩, ⟨0xC80000#24, 0x400000#24⟩,
   ⟨0xC80000#24, 0x480000#24⟩, ⟨0xC80000#24, 0x800000#24⟩, ⟨0xC80000#24, 0x880000#24⟩,
   ⟨0xC00000#24, 0xC00000#24⟩]

end Sys2Proof
end

