-- ==== Sys2Proof/Machine/State.lean ====
section
/-!
DEFINITION. The state of the block, the host's commands and the block's responses, and the reasons a step can stop.
-/

namespace Sys2Proof.Machine

/-- The five host commands (45_host_interface.md R66), with words already assembled (R72). -/
inductive Command where
  /-- EXEC, one word (R67). -/
  | exec (w : InstrWord)
  /-- RUN, a word sequence (R68). -/
  | run (ws : List InstrWord)
  /-- STEP, a word sequence (R69). -/
  | step (ws : List InstrWord)
  /-- RESET (R70). -/
  | reset
  /-- SNAPSHOT (R71). -/
  | snapshot
  deriving DecidableEq, Repr

/-- The responses of the host commands (R66). -/
inductive Response where
  /-- `Ok`, of EXEC and RESET. -/
  | ok
  /-- `Fault(c)`, of EXEC. -/
  | fault (c : Cause)
  /-- `RunOk`, of RUN. -/
  | runOk
  /-- `RunFault(k, c)`, of RUN: the index and the cause. -/
  | runFault (k : Nat) (c : Cause)
  /-- `Executed`, of STEP. -/
  | executed
  /-- `Complete`, of STEP. -/
  | complete
  /-- `StepFault(c)`, of STEP. -/
  | stepFault (c : Cause)
  /-- The four register values, of SNAPSHOT, in the order AX, BX, CX, DX (R71). -/
  | registers (ax bx cx dx : Word)
  deriving DecidableEq, Repr

/-- The register bank: `x[0]` to `x[3]` (10_state.md R13). -/
structure RegBank where
  ax : Word
  bx : Word
  cx : Word
  dx : Word
  deriving DecidableEq, Repr

/-- The state of the block. `regs`, `cursor`, `captured` and `prog` are all the spec gives it (10_state.md R13 to R23);
`raised`, `pending` and `response` carry the transaction with the host (logs 2, 3 and 4). -/
structure State where
  /-- The register bank (R13). -/
  regs : RegBank
  /-- The program cursor, the block's program counter: an index into `prog` (R18). -/
  cursor : Nat
  /-- The capture flag (R21). -/
  captured : Bool
  /-- The captured program (R21, R26). -/
  prog : List InstrWord
  /-- The cause raised by the instruction now executing (R11, R75); DESIGN CHOICE (log 4), safe. -/
  raised : Option Cause
  /-- The host's commands not yet served, first first (R66); DESIGN CHOICE (log 2), safe. -/
  pending : List Command
  /-- The response of the last command served (R66); DESIGN CHOICE (log 3), safe. -/
  response : Option Response
  deriving DecidableEq, Repr

/-- Power-on (10_state.md R24, 70_reset_and_hazards.md R87): registers 0, cursor 0, nothing captured.
That no command is pending, no response given and no fault raised is the model's own start (logs 2, 3 and 4). -/
def State.reset : State where
  regs := ⟨0#16, 0#16, 0#16, 0#16⟩
  cursor := 0
  captured := false
  prog := []
  raised := none
  pending := []
  response := none

/-- Why the machine stops. The five fault causes of R75 are not here: a fault of the block ends one command and the
block goes on, so it is a next state whose response carries the cause (60_exceptions.md R78). -/
inductive Fault where
  /-- Raised by a RUN, or by a STEP that captures, whose program is longer than the instruction store:
  "a host command whose program is longer is outside this spec" (20_memory.md R26). DESIGN CHOICE (log 1), safe. -/
  | programTooLong
  deriving DecidableEq, Repr

/-- Why an instruction has no meaning. -/
inductive Refusal where
  /-- Answered by an arm of `exec` for an instruction that has no meaning yet; safe. No arm answers it now. -/
  | notModelled (mnemonic : String)
  deriving DecidableEq, Repr

end Sys2Proof.Machine
end

