-- ==== Sys2Proof/Machine/Ops.lean ====
section
/-!
DEFINITION. The named operations over the register bank, the ALU, and the raising of a fault.
The block has no data memory (20_memory.md R25), so no operation here reads or writes one.
-/

namespace Sys2Proof.Machine

/-- The value of a register in a bank (10_state.md R13). -/
def RegBank.get (b : RegBank) : Reg → Word
  | .ax => b.ax
  | .bx => b.bx
  | .cx => b.cx
  | .dx => b.dx

/-- A bank with one register given a whole 16-bit value (20_memory.md R29). -/
def RegBank.set (b : RegBank) (r : Reg) (v : Word) : RegBank :=
  match r with
  | .ax => { b with ax := v }
  | .bx => { b with bx := v }
  | .cx => { b with cx := v }
  | .dx => { b with dx := v }

/-- `x[r]` (00_scope.md R11): a read has no side effect (R29) and no register is hard-wired (R15). -/
def readReg (r : Reg) (s : State) : Word := s.regs.get r

/-- `x[r] <- v` (R11). -/
def writeReg (r : Reg) (v : Word) (s : State) : State := { s with regs := s.regs.set r v }

/-- ADD: the sum reduced modulo 2^16; the carry is recorded nowhere (40_alu.md R58, R61). -/
def aluAdd (a b : Word) : Word := BitVec.ofNat 16 (a.toNat + b.toNat)

/-- SUB: the difference of the mathematical integers, reduced into 0 .. 0xFFFF (R59, R61). -/
def aluSub (a b : Word) : Word := BitVec.ofInt 16 ((a.toNat : Int) - (b.toNat : Int))

/-- The ALU (R56): `a` is the destination's old value, `b` the source operand. -/
def alu (op : Op) (a b : Word) : Word :=
  match op with
  | .mov => b
  | .add => aluAdd a b
  | .sub => aluSub a b

/-- The cause a cause field names (R60): 0, 6 and 7 name UnknownInstruction. -/
def causeOf (c : BitVec 3) : Cause :=
  if c = 1#3 then .malformedInstruction
  else if c = 3#3 then .unknownRegister
  else if c = 4#3 then .invalidImmediate
  else if c = 5#3 then .invalidDestination
  else .unknownInstruction

/-- Taking a fault (60_exceptions.md R78): no register changes, the cursor does not move, no mode or mask changes and
nothing is saved; only the cause goes to the host command that executes the instruction, which returns to the host.
There is no return from a fault (R79). -/
def raiseFault (c : Cause) (s : State) : State := { s with raised := some c }

end Sys2Proof.Machine
end

