-- ==== Sys2Proof/Machine/Operands.lean ====
section
/-!
DEFINITION. The operand multiplexer and the datapath the MOV, ADD and SUB words share.
-/

namespace Sys2Proof.Machine

/-- The operand multiplexer (40_alu.md R55): the immediate as it stands, unextended (R39), or the register's value. -/
def sourceValue (src : Source) (s : State) : Word :=
  match src with
  | .reg rs => readReg rs s
  | .imm v => v

/-- The datapath (R56): both operands are read in `s`, before the one write (R91). -/
def operate (op : Op) (rd : Reg) (src : Source) (s : State) : State :=
  writeReg rd (alu op (readReg rd s) (sourceValue src s)) s

end Sys2Proof.Machine
end

