-- ==== Sys2Proof/Machine/Arith.lean ====
section
/-!
DEFINITION. ADD and SUB, register form and immediate form (40_alu.md R58, R59).
-/

namespace Sys2Proof.Machine

/-- `ADD rd rs`: `x[rd] <- (x[rd] + x[rs]) mod 2^16` (R58). -/
def execAddRR (rd rs : Reg) (s : State) : Host.Outcome State Fault Refusal := .next (operate .add rd (.reg rs) s)

/-- `ADD rd #imm`: `x[rd] <- (x[rd] + imm16) mod 2^16` (R58). -/
def execAddRI (rd : Reg) (imm16 : Word) (s : State) : Host.Outcome State Fault Refusal :=
  .next (operate .add rd (.imm imm16) s)

/-- `SUB rd rs`: `x[rd] <- (x[rd] - x[rs]) mod 2^16` (R59). -/
def execSubRR (rd rs : Reg) (s : State) : Host.Outcome State Fault Refusal := .next (operate .sub rd (.reg rs) s)

/-- `SUB rd #imm`: `x[rd] <- (x[rd] - imm16) mod 2^16` (R59). -/
def execSubRI (rd : Reg) (imm16 : Word) (s : State) : Host.Outcome State Fault Refusal :=
  .next (operate .sub rd (.imm imm16) s)

end Sys2Proof.Machine
end

