-- ==== Sys2Proof/Machine/Illegal.lean ====
section
/-!
DEFINITION. The ILLEGAL word (40_alu.md R60).
-/

namespace Sys2Proof.Machine

/-- ILLEGAL: raise the fault the cause field names and change nothing else (R60, R62). -/
def execIllegal (cause : BitVec 3) (s : State) : Host.Outcome State Fault Refusal :=
  .next (raiseFault (causeOf cause) s)

end Sys2Proof.Machine
end

