-- ==== Sys2Proof/Machine/Move.lean ====
section
/-!
DEFINITION. MOV, register form and immediate form (40_alu.md R57).
-/

namespace Sys2Proof.Machine

/-- `MOV rd rs`: `x[rd] <- x[rs]` (R57). -/
def execMovRR (rd rs : Reg) (s : State) : Host.Outcome State Fault Refusal := .next (operate .mov rd (.reg rs) s)

/-- `MOV rd #imm`: `x[rd] <- imm16` (R57). -/
def execMovRI (rd : Reg) (imm16 : Word) (s : State) : Host.Outcome State Fault Refusal :=
  .next (operate .mov rd (.imm imm16) s)

end Sys2Proof.Machine
end

