-- ==== Sys2Proof/Machine/Dispatch.lean ====
section
/-!
DEFINITION. One arm per instruction.
-/

namespace Sys2Proof.Machine

/-- What an instruction does to the state: the body of `execute(w)` after decoding (40_alu.md R56). -/
def exec (i : Instr) (s : State) : Host.Outcome State Fault Refusal :=
  match i with
  | .movRR rd rs => Sys2Proof.Machine.execMovRR rd rs s
  | .movRI rd imm16 => Sys2Proof.Machine.execMovRI rd imm16 s
  | .addRR rd rs => Sys2Proof.Machine.execAddRR rd rs s
  | .addRI rd imm16 => Sys2Proof.Machine.execAddRI rd imm16 s
  | .subRR rd rs => Sys2Proof.Machine.execSubRR rd rs s
  | .subRI rd imm16 => Sys2Proof.Machine.execSubRI rd imm16 s
  | .illegal cause => Sys2Proof.Machine.execIllegal cause s

end Sys2Proof.Machine
end

