-- ==== Sys2Proof/Machine/Session.lean ====
section
/-!
DEFINITION. Session control: the execution of one word and the five host commands (45_host_interface.md R66 to R74).
A command is one indivisible transaction with one response, so it is one step of the machine (R66, R73; log 2).
-/

namespace Sys2Proof.Machine

/-- `execute(w)` (40_alu.md R56): decode the word and run the instruction, no fault being raised before it. -/
def execute (w : InstrWord) (s : State) : Host.Outcome State Fault Refusal := exec (decode w) { s with raised := none }

/-- End a command: its response goes to the host and no raised fault stays behind (10_state.md R23). -/
def respond (r : Response) (s : State) : State := { s with raised := none, response := some r }

/-- What a command does after an instruction: one thing if it raised a fault, another if it completed. -/
def afterInstr (o : Host.Outcome State Fault Refusal) (faulted : Cause → State → Host.Outcome State Fault Refusal)
    (completed : State → Host.Outcome State Fault Refusal) : Host.Outcome State Fault Refusal :=
  match o with
  | .next t =>
    match t.raised with
    | some c => faulted c t
    | none => completed t
  | .fault r => .fault r
  | .refused r => .refused r

/-- EXEC (R67). -/
def serveExec (w : InstrWord) (s : State) : Host.Outcome State Fault Refusal :=
  afterInstr (execute w s) (fun c t => .next (respond (.fault c) t)) (fun t => .next (respond .ok t))

/-- RUN's loop (R68), at RUN's own index `k` (20_memory.md R25): the first fault stops it. -/
def runFrom (k : Nat) (ws : List InstrWord) (s : State) : Host.Outcome State Fault Refusal :=
  match ws with
  | [] => .next (respond .runOk s)
  | w :: rest => afterInstr (execute w s) (fun c t => .next (respond (.runFault k c) t)) (runFrom (k + 1) rest)

/-- RUN (R68), from index 0; a program the store of `cap` words cannot hold stops the model (R26; log 1). -/
def serveRun (cap : Nat) (ws : List InstrWord) (s : State) : Host.Outcome State Fault Refusal :=
  if programFits cap ws then runFrom 0 ws s else .fault .programTooLong

/-- STEP's capture of its program (R69). -/
def capture (ws : List InstrWord) (s : State) : State := { s with prog := ws, captured := true, cursor := 0 }

/-- STEP after the capture (R69): execute the entry at the cursor, if there is one. It does not look at the capacity: that
an entry of a captured program longer than PROG_CAP, which R26 puts outside the spec, executes all the same is the model's
choice (log 12). No step captures such a program; only `placeFetch` builds one. -/
def stepEntry (s : State) : Host.Outcome State Fault Refusal :=
  match s.prog[s.cursor]? with
  | none => .next (respond .complete s)
  | some w =>
    afterInstr (execute w s) (fun c t => .next (respond (.stepFault c) t))
      (fun t => .next (respond .executed { t with cursor := t.cursor + 1 }))

/-- STEP (R69). With a program captured the argument is ignored, its length too (log 5). -/
def serveStep (cap : Nat) (ws : List InstrWord) (s : State) : Host.Outcome State Fault Refusal :=
  if s.captured then stepEntry s
  else if programFits cap ws then stepEntry (capture ws s)
  else .fault .programTooLong

/-- RESET (R70): everything the spec gives the block to its value of R24; the host's own later commands stay (log 13). -/
def serveReset (s : State) : Host.Outcome State Fault Refusal :=
  .next (respond .ok { State.reset with pending := s.pending })

/-- SNAPSHOT (R71): AX, BX, CX, DX in that order. -/
def serveSnapshot (s : State) : Host.Outcome State Fault Refusal :=
  .next (respond (.registers (readReg .ax s) (readReg .bx s) (readReg .cx s) (readReg .dx s)) s)

/-- One host command (R66). -/
def serve (cap : Nat) (c : Command) (s : State) : Host.Outcome State Fault Refusal :=
  match c with
  | .exec w => serveExec w s
  | .run ws => serveRun cap ws s
  | .step ws => serveStep cap ws s
  | .reset => serveReset s
  | .snapshot => serveSnapshot s

/-- One step of a block whose store holds `cap` words: serve the first pending command; with none pending the block is
idle and keeps its whole state (60_exceptions.md R86). -/
def stepWith (cap : Nat) (s : State) : Host.Outcome State Fault Refusal :=
  match s.pending with
  | [] => .next s
  | c :: rest => serve cap c { s with pending := rest }

/-- The host presents a command after those already pending (R66; log 2). -/
def present (c : Command) (s : State) : State := { s with pending := s.pending ++ [c] }

/-- A program with `w` at entry `k`: the entries before it padded with the all-zero word, MOV AX AX, if there are too
few; for `k` = PROG_CAP or more the result is longer than PROG_CAP, which R26 puts outside the spec. Both are the model's
choice (log 12). -/
def placeEntry (prog : List InstrWord) (k : Nat) (w : InstrWord) : List InstrWord :=
  prog.take k ++ (List.replicate (k - prog.length) 0#24 ++ w :: prog.drop (k + 1))

/-- A captured program with `w` at the cursor, and a STEP as the next command to serve. With the cursor at or past PROG_CAP
(a finished program that fills the store, or PROG_CAP 0 at reset) that program is longer than PROG_CAP, outside the spec by
R26; that it is built, and its entry executed by `stepEntry`, is the model's choice (log 12). -/
def placeFetch (w : InstrWord) (s : State) : State :=
  { s with captured := true, prog := placeEntry s.prog s.cursor w, pending := .step [] :: s.pending }

end Sys2Proof.Machine
end

