-- ==== Sys2Proof/Machine/Step.lean ====
section
/-!
DEFINITION. The step of the machine, and placing a word where it fetches.
-/

namespace Sys2Proof.Machine

/-- One step: one host command, whole (45_host_interface.md R66), on a block whose store holds PROG_CAP words (R9). -/
def step (s : State) : Host.Outcome State Fault Refusal := stepWith Config.progCap s

/-- `s` with the `nbits`-bit word `w` in the captured program at the cursor and a STEP presented, so that the next step
fetches and runs it, also where the program then exceeds PROG_CAP (the model's choice, log 12). -/
def State.withFetchWord (s : State) (nbits w : Nat) : State := placeFetch (tableWord nbits w) s

end Sys2Proof.Machine
end

