-- ==== Sys2Proof/Machine/Assembler.lean ====
section
/-!
DEFINITION. The assembler (30_encoding.md section 2), the text operations over it (45_host_interface.md R72), and the
spellings of words and registers (R54, R71). Text is a list of characters (log 8).
-/

namespace Sys2Proof.Machine

/-- Text: its characters in order. -/
abbrev Text := List Char

/-! ### Lines and tokens (R44, R45) -/

/-- The six ASCII whitespace characters (R45); no other character is whitespace. -/
def isSpace (c : Char) : Bool :=
  c.toNat == 0x20 || c.toNat == 0x09 || c.toNat == 0x0A || c.toNat == 0x0B || c.toNat == 0x0C || c.toNat == 0x0D

/-- Whether a text starts with a token character. -/
def startsToken : Text → Bool
  | [] => false
  | c :: _ => !isSpace c

/-- Put a character in front of the first token. -/
def extendFirst (c : Char) : List Text → List Text
  | [] => [[c]]
  | t :: ts => (c :: t) :: ts

/-- The tokens of a line: its maximal non-empty runs of characters that are not whitespace (R45). -/
def tokens : Text → List Text
  | [] => []
  | c :: cs =>
    if isSpace c then tokens cs
    else if startsToken cs then extendFirst c (tokens cs)
    else [c] :: tokens cs

/-- A text without its leading and trailing whitespace (R44). -/
def trim (t : Text) : Text := ((t.dropWhile isSpace).reverse.dropWhile isSpace).reverse

/-- A text cut at every line feed (R44). -/
def cutAtLF : Text → List Text
  | [] => [[]]
  | c :: cs => if c.toNat == 0x0A then [] :: cutAtLF cs else extendFirst c (cutAtLF cs)

/-- The lines of a program text (R44): none if nothing remains after trimming. -/
def lines (t : Text) : List Text := if (trim t).isEmpty then [] else cutAtLF (trim t)

/-! ### Mnemonics, registers, immediates (R47 to R50) -/

/-- A letter `a` .. `z` to upper case, any other character as it is (R47). -/
def upperChar (c : Char) : Char := if 0x61 ≤ c.toNat ∧ c.toNat ≤ 0x7A then Char.ofNat (c.toNat - 0x20) else c

/-- `asciiUpper` (R47). -/
def asciiUpper (t : Text) : Text := t.map upperChar

/-- The mnemonic of an operation (R37). -/
def mnemonic : Op → Text
  | .mov => ['M', 'O', 'V']
  | .add => ['A', 'D', 'D']
  | .sub => ['S', 'U', 'B']

/-- The operation of an upper-case mnemonic (R47). -/
def opOfMnemonic (t : Text) : Option Op :=
  if t = mnemonic .mov then some .mov
  else if t = mnemonic .add then some .add
  else if t = mnemonic .sub then some .sub
  else none

/-- The name of a register (10_state.md R13). -/
def regName : Reg → Text
  | .ax => ['A', 'X']
  | .bx => ['B', 'X']
  | .cx => ['C', 'X']
  | .dx => ['D', 'X']

/-- The register a token names, exactly and case-sensitively (R48). -/
def regOfName (t : Text) : Option Reg :=
  if t = regName .ax then some .ax
  else if t = regName .bx then some .bx
  else if t = regName .cx then some .cx
  else if t = regName .dx then some .dx
  else none

/-- The worth of a hex digit (R50), `none` for any other character. -/
def hexDigit (c : Char) : Option Nat :=
  if 0x30 ≤ c.toNat ∧ c.toNat ≤ 0x39 then some (c.toNat - 0x30)
  else if 0x61 ≤ c.toNat ∧ c.toNat ≤ 0x66 then some (c.toNat - 0x61 + 10)
  else if 0x41 ≤ c.toNat ∧ c.toNat ≤ 0x46 then some (c.toNat - 0x41 + 10)
  else none

/-- `isHexDigitString` (R50): one or more hex digits and nothing else. -/
def isHexDigitString (h : Text) : Bool := !h.isEmpty && h.all (fun c => (hexDigit c).isSome)

/-- `hexValue` (R50), of any number of digits, first digit most significant. -/
def hexValue (h : Text) : Nat := h.foldl (fun v c => 16 * v + (hexDigit c).getD 0) 0

/-! ### The assembler (R51) -/

/-- The ILLEGAL word of a cause (R51). -/
def illegalWord (c : Cause) : InstrWord := encodeIllegal c.code

/-- The source token (R49). -/
def parseSource (t : Text) : Except Cause Source :=
  match t with
  | '#' :: h => if isHexDigitString h then .ok (.imm (BitVec.ofNat 16 (hexValue h))) else .error .invalidImmediate
  | _ =>
    match regOfName t with
    | some rs => .ok (.reg rs)
    | none => .error .unknownRegister

/-- The destination token (R48). -/
def parseDest (t : Text) : Except Cause Reg :=
  match t with
  | '#' :: _ => .error .invalidDestination
  | _ =>
    match regOfName t with
    | some rd => .ok rd
    | none => .error .unknownRegister

/-- `assembleLine` (R51): arity, mnemonic, destination, source, in that order (60_exceptions.md R77). -/
def assembleLine (line : Text) : InstrWord :=
  match tokens line with
  | m :: d :: t :: _ =>
    match opOfMnemonic (asciiUpper m) with
    | none => illegalWord .unknownInstruction
    | some op =>
      match parseDest d with
      | .error c => illegalWord c
      | .ok rd =>
        match parseSource t with
        | .error c => illegalWord c
        | .ok src => encodeParts op rd src
  | _ => illegalWord .malformedInstruction

/-- `assembleProgram` (R51). -/
def assembleProgram (t : Text) : List InstrWord := (lines t).map assembleLine

/-! ### The document's text operations (R72) -/

/-- `execute_line(text)`. -/
def executeLine (line : Text) : Command := .exec (assembleLine line)

/-- `run(lines)`. -/
def runLines (ls : List Text) : Command := .run (ls.map assembleLine)

/-- `step(lines)`. -/
def stepLines (ls : List Text) : Command := .step (ls.map assembleLine)

/-- `reset()`. -/
def resetSession : Command := .reset

/-- `snapshot()`. -/
def snapshotSession : Command := .snapshot

/-- The document's results (45_host_interface.md R72). -/
inductive TextResult where
  /-- `Ok(())`. -/
  | ok
  /-- `Ok(Executed)`. -/
  | okExecuted
  /-- `Ok(Complete)`. -/
  | okComplete
  /-- `Err(c)`. -/
  | err (c : Cause)
  /-- `Err((k, c))`. -/
  | errAt (k : Nat) (c : Cause)
  /-- The register bank. -/
  | bank (ax bx cx dx : Word)
  deriving DecidableEq, Repr

/-- The document's result of a response (R72). -/
def textResult : Response → TextResult
  | .ok => .ok
  | .fault c => .err c
  | .runOk => .ok
  | .runFault k c => .errAt k c
  | .executed => .okExecuted
  | .complete => .okComplete
  | .stepFault c => .err c
  | .registers a b c d => .bank a b c d

/-! ### Spellings (R54, R71) -/

/-- An upper-case hex digit of a number below 16. -/
def hexChar (n : Nat) : Char := if n < 10 then Char.ofNat (0x30 + n) else Char.ofNat (0x41 + (n - 10))

/-- Exactly four upper-case hex digits. -/
def hex4 (v : Word) : Text :=
  [hexChar (v.toNat / 4096 % 16), hexChar (v.toNat / 256 % 16), hexChar (v.toNat / 16 % 16), hexChar (v.toNat % 16)]

/-- The name of a cause (60_exceptions.md R75). -/
def causeName : Cause → Text
  | .malformedInstruction => "MalformedInstruction".toList
  | .unknownInstruction => "UnknownInstruction".toList
  | .unknownRegister => "UnknownRegister".toList
  | .invalidImmediate => "InvalidImmediate".toList
  | .invalidDestination => "InvalidDestination".toList

/-- The spelling of a source operand (R54). -/
def spellSource : Source → Text
  | .reg rs => regName rs
  | .imm v => '#' :: hex4 v

/-- The canonical spelling of a word (R54); what stands after `.illegal` is log 11. -/
def spell (w : InstrWord) : Text :=
  match Op.ofCode (opField w) with
  | some op => mnemonic op ++ ' ' :: (regName (Reg.ofIndex (rdField w)) ++ ' ' :: spellSource (sourceOf w))
  | none => ".illegal ".toList ++ causeName (causeOf (causeField w))

/-- The host's display of one register, `NAME: VVVV` (R71). -/
def displayReg (r : Reg) (v : Word) : Text := regName r ++ ':' :: ' ' :: hex4 v

/-- The host's display of a snapshot, one line per register (R71). -/
def displaySnapshot (ax bx cx dx : Word) : List Text :=
  [displayReg .ax ax, displayReg .bx bx, displayReg .cx cx, displayReg .dx dx]

end Sys2Proof.Machine
end

