-- ==== Sys2Proof/Safety.lean ====
section
/-!
DEFINITION. The terms claims use: what an instruction leaves unchanged, the invariant of a session, and when a step is
safe.
-/

namespace Sys2Proof.Machine

/-- From `s` to `t` nothing changes but the register `rd` (40_alu.md R56: the only write). -/
def OnlyRegChanges (rd : Reg) (s t : State) : Prop :=
  (∀ r, r ≠ rd → readReg r t = readReg r s) ∧ t.cursor = s.cursor ∧ t.captured = s.captured ∧ t.prog = s.prog ∧
    t.raised = s.raised ∧ t.pending = s.pending ∧ t.response = s.response

/-- The state the spec gives the block (10_state.md R13, R18, R21) is the same in `s` and `t`. -/
def SameBlock (s t : State) : Prop :=
  t.regs = s.regs ∧ t.cursor = s.cursor ∧ t.captured = s.captured ∧ t.prog = s.prog

/-- The session state is the same: only registers may differ. -/
def SameSession (s t : State) : Prop := t.cursor = s.cursor ∧ t.captured = s.captured ∧ t.prog = s.prog

/-- A word spells MOV, ADD or SUB, not ILLEGAL (30_encoding.md R43). -/
def isValidWord (w : InstrWord) : Bool := opField w != 0b11#2

/-- A word that writes register `r` (40_alu.md R56). -/
def WritesReg (w : InstrWord) (r : Reg) : Prop := isValidWord w = true ∧ Reg.ofIndex (rdField w) = r

/-- What the three operations compute from the destination's old value `a` and the source `b`, in 16-bit wrapping
arithmetic (R56). The claims use it beside the model's own ALU. -/
def resultOf (op : Op) (a b : Word) : Word :=
  match op with
  | .mov => b
  | .add => a + b
  | .sub => a - b

/-- The effect of one word on a register bank alone (R56): the reference the claims about RUN and STEP compare with. -/
def wordEffect (b : RegBank) (w : InstrWord) : RegBank :=
  let src := if sField w = 1#1 then immField w else b.get (Reg.ofIndex (rsField w))
  match Op.ofCode (opField w) with
  | some op => b.set (Reg.ofIndex (rdField w)) (resultOf op (b.get (Reg.ofIndex (rdField w))) src)
  | none => b

/-- The effect of words one after another (20_memory.md R32). -/
def regsAfter (ws : List InstrWord) (b : RegBank) : RegBank := ws.foldl wordEffect b

/-- The next step of `s` serves a command: it leaves `rest` pending, gives the response `r` and latches no fault. -/
def Serves (cap : Nat) (s : State) (rest : List Command) (r : Response) (t : State) : Prop :=
  stepWith cap s = .next t ∧ t.pending = rest ∧ t.response = some r ∧ t.raised = none

/-- `n` steps, stopping where one stops. -/
def stepsWith (cap : Nat) : Nat → State → Host.Outcome State Fault Refusal
  | 0, s => .next s
  | n + 1, s =>
    match stepWith cap s with
    | .next t => stepsWith cap n t
    | .fault r => .fault r
    | .refused r => .refused r

/-- A token that is no register name (30_encoding.md R48). -/
def NoRegister (t : Text) : Prop := ∀ r, t ≠ regName r

/-- A token that does not begin with `#`. -/
def NoHash (t : Text) : Prop := ∀ h, t ≠ '#' :: h

/-- What a line with the mnemonic of `op` can assemble to (40_alu.md R57 to R59, "Exceptions"): an instruction of `op`,
or an ILLEGAL word with one of the four causes other than UnknownInstruction. -/
def AssemblesTo (op : Op) (line : Text) : Prop :=
  (∃ rd src, decode (assembleLine line) = Instr.ofParts op rd src) ∨
    ∃ c : Cause, c ≠ .unknownInstruction ∧ decode (assembleLine line) = .illegal c.code

/-- The response and the state a host command may change, as the table of 45_host_interface.md R66 lists them. -/
def CommandRow (c : Command) (s t : State) (r : Response) : Prop :=
  match c with
  | .exec _ => (r = .ok ∨ ∃ c, r = .fault c) ∧ SameSession s t
  | .run _ => (r = .runOk ∨ ∃ k c, r = .runFault k c) ∧ SameSession s t
  | .step _ => r = .executed ∨ r = .complete ∨ ∃ c, r = .stepFault c
  | .reset => r = .ok
  | .snapshot => r = .registers s.regs.ax s.regs.bx s.regs.cx s.regs.dx ∧ SameBlock s t

/-- The invariant of a session with a store of `cap` words: the cursor never exceeds the program's length (10_state.md
R20), nothing is captured before the first STEP (R24), the store holds the program (R26), and no fault is latched (R23). -/
structure State.Inv (cap : Nat) (s : State) : Prop where
  cursor_le : s.cursor ≤ s.prog.length
  uncaptured : s.captured = false → s.prog = [] ∧ s.cursor = 0
  fits : s.prog.length ≤ cap
  not_raised : s.raised = none

/-- A command within the spec: its program, if it has one, fits the store (20_memory.md R26). -/
def Command.inSpec (cap : Nat) : Command → Bool
  | .exec _ => true
  | .run ws => programFits cap ws
  | .step ws => programFits cap ws
  | .reset => true
  | .snapshot => true

/-- A command the model does not stop on: the program it LOADS fits the store; a STEP with a program captured loads none
(log 5). -/
def Command.covered (cap : Nat) (captured : Bool) : Command → Bool
  | .exec _ => true
  | .run ws => programFits cap ws
  | .step ws => captured || programFits cap ws
  | .reset => true
  | .snapshot => true

/-- The next step is safe: it has no command to serve, or one the spec covers. -/
def State.safe (cap : Nat) (s : State) : Bool :=
  match s.pending with
  | [] => true
  | c :: _ => c.covered cap s.captured

end Sys2Proof.Machine
end

