-- ==== Sys2Proof/Certificates/Slice0/Obligations.lean ====
section
/-!
DEFINITION. The statements for the provers, from the numbered rules of spec/.
`stepWith cap` is the step of a block whose store holds `cap` words; `step` is `stepWith Config.progCap`, so what is
said for every `cap` holds of `step`.
-/

open Sys2Proof Sys2Proof.Machine

/-! ### Reset -/

/-- R24: the state at power-on and after every RESET command. -/
def Obligations.PowerOnAndResetGiveSpecValues : Prop :=
  (State.reset.regs = ⟨0#16, 0#16, 0#16, 0#16⟩ ∧ State.reset.cursor = 0 ∧ State.reset.captured = false ∧
    State.reset.prog = []) ∧
  ∀ cap (s : State) rest, s.pending = .reset :: rest →
    ∃ t, Serves cap s rest .ok t ∧ t.regs = ⟨0#16, 0#16, 0#16, 0#16⟩ ∧ t.cursor = 0 ∧ t.captured = false ∧ t.prog = []

/-- R70, R87: RESET cannot fail, gives the power-on state, and a second RESET changes nothing. -/
def Obligations.ResetIsTotalAndIdempotent : Prop :=
  ∀ cap (s : State) rest, s.pending = .reset :: rest →
    ∃ t, Serves cap s rest .ok t ∧ SameBlock State.reset t ∧
      t.regs = ⟨0#16, 0#16, 0#16, 0#16⟩ ∧ t.cursor = 0 ∧ t.captured = false ∧ t.prog = [] ∧
      stepWith cap { t with pending := .reset :: rest } = .next t

/-! ### The instructions -/

/-- R57: MOV, both forms, with its encoding, its text failures, its corner cases and its example. -/
def Obligations.MovCopiesSource : Prop :=
  (∀ rd rs s, ∃ t, exec (.movRR rd rs) s = .next t ∧ readReg rd t = readReg rs s ∧ OnlyRegChanges rd s t) ∧
  (∀ rd v s, ∃ t, exec (.movRI rd v) s = .next t ∧ readReg rd t = v ∧ OnlyRegChanges rd s t) ∧
  (∀ w, opField w = 0b00#2 → decode w =
    if sField w = 1#1 then .movRI (Reg.ofIndex (rdField w)) (immField w)
    else .movRR (Reg.ofIndex (rdField w)) (Reg.ofIndex (rsField w))) ∧
  (∀ line m rest, tokens line = m :: rest → asciiUpper m = mnemonic .mov → AssemblesTo .mov line) ∧
  (∀ line m r h rest, tokens line = m :: regName r :: ('#' :: h) :: rest → asciiUpper m = mnemonic .mov →
    isHexDigitString h = true → decode (assembleLine line) = .movRI r (BitVec.ofNat 16 (hexValue h))) ∧
  (∀ r s, exec (.movRR r r) s = .next s) ∧ decode 0x000000#24 = .movRR .ax .ax ∧
  (∀ r s, ∃ t, exec (.movRI r 0#16) s = .next t ∧ readReg r t = 0#16) ∧
  assembleLine "MOV AX #1".toList = 0x080001#24 ∧ decode 0x080001#24 = .movRI .ax 0x0001#16

/-- R58: ADD, both forms, with its encoding, its text failures, its corner cases and its example. -/
def Obligations.AddIsModulo : Prop :=
  (∀ rd rs s, ∃ t, exec (.addRR rd rs) s = .next t ∧
    (readReg rd t).toNat = ((readReg rd s).toNat + (readReg rs s).toNat) % 65536 ∧ OnlyRegChanges rd s t) ∧
  (∀ rd v s, ∃ t, exec (.addRI rd v) s = .next t ∧
    (readReg rd t).toNat = ((readReg rd s).toNat + v.toNat) % 65536 ∧ OnlyRegChanges rd s t) ∧
  (∀ w, opField w = 0b01#2 → decode w =
    if sField w = 1#1 then .addRI (Reg.ofIndex (rdField w)) (immField w)
    else .addRR (Reg.ofIndex (rdField w)) (Reg.ofIndex (rsField w))) ∧
  (∀ line m rest, tokens line = m :: rest → asciiUpper m = mnemonic .add → AssemblesTo .add line) ∧
  (∀ rd s, readReg rd s = 0xFFFF#16 → ∃ t u, exec (.addRI rd 0x0001#16) s = .next t ∧ readReg rd t = 0x0000#16 ∧
    exec (.addRI rd 0xFFFF#16) s = .next u ∧ readReg rd u = 0xFFFE#16) ∧
  (∀ r s, ∃ t, exec (.addRR r r) s = .next t ∧ (readReg r t).toNat = (2 * (readReg r s).toNat) % 65536) ∧
  (∀ r s, exec (.addRI r 0#16) s = .next s) ∧
  (∀ q r a b s, ∃ t u v, exec (.movRI q a) s = .next t ∧ exec (.movRI r b) t = .next u ∧
    exec (.addRR q r) u = .next v ∧
    (readReg q v).toNat = (if q = r then b.toNat + b.toNat else a.toNat + b.toNat) % 65536) ∧
  assembleLine "ADD AX BX".toList = 0x420000#24 ∧ decode 0x420000#24 = .addRR .ax .bx ∧
  (∀ s, readReg .ax s = 0x1234#16 → readReg .bx s = 0x0001#16 →
    ∃ t, exec (.addRR .ax .bx) s = .next t ∧ readReg .ax t = 0x1235#16)

/-- R59: SUB, both forms, with its encoding, its text failures, its corner cases and its example. -/
def Obligations.SubIsModulo : Prop :=
  (∀ rd rs s, ∃ t, exec (.subRR rd rs) s = .next t ∧
    ((readReg rd t).toNat : Int) = ((readReg rd s).toNat - (readReg rs s).toNat : Int) % 65536 ∧
    OnlyRegChanges rd s t) ∧
  (∀ rd v s, ∃ t, exec (.subRI rd v) s = .next t ∧
    ((readReg rd t).toNat : Int) = ((readReg rd s).toNat - v.toNat : Int) % 65536 ∧ OnlyRegChanges rd s t) ∧
  (∀ w, opField w = 0b10#2 → decode w =
    if sField w = 1#1 then .subRI (Reg.ofIndex (rdField w)) (immField w)
    else .subRR (Reg.ofIndex (rdField w)) (Reg.ofIndex (rsField w))) ∧
  (∀ line m rest, tokens line = m :: rest → asciiUpper m = mnemonic .sub → AssemblesTo .sub line) ∧
  (∀ rd s, readReg rd s = 0x0000#16 → ∃ t u, exec (.subRI rd 0x0001#16) s = .next t ∧ readReg rd t = 0xFFFF#16 ∧
    exec (.subRI rd 0xFFFF#16) s = .next u ∧ readReg rd u = 0x0001#16) ∧
  (∀ r s, ∃ t, exec (.subRR r r) s = .next t ∧ readReg r t = 0#16) ∧
  (∀ r s, exec (.subRI r 0#16) s = .next s) ∧
  assembleLine "SUB AX #1".toList = 0x880001#24 ∧ decode 0x880001#24 = .subRI .ax 0x0001#16

/-- R60: an ILLEGAL word raises the fault of its cause field and changes nothing. -/
def Obligations.IllegalRaisesItsCause : Prop :=
  (∀ w, opField w = 0b11#2 → decode w = .illegal (causeField w)) ∧
  (∀ c s, exec (.illegal c) s = .next { s with raised := some (causeOf c) }) ∧
  causeOf 1#3 = .malformedInstruction ∧ causeOf 2#3 = .unknownInstruction ∧ causeOf 3#3 = .unknownRegister ∧
  causeOf 4#3 = .invalidImmediate ∧ causeOf 5#3 = .invalidDestination ∧
  causeOf 0#3 = .unknownInstruction ∧ causeOf 6#3 = .unknownInstruction ∧ causeOf 7#3 = .unknownInstruction ∧
  assembleLine "FOO AX #1".toList = 0xC00002#24 ∧
  (∀ s, execute 0xC00002#24 s = .next { s with raised := some .unknownInstruction }) ∧
  (∀ line m d t rest, tokens line = m :: d :: t :: rest → (∀ op, asciiUpper m ≠ mnemonic op) →
    decode (assembleLine line) = .illegal (Cause.code .unknownInstruction))

/-- R56, R62: executing a word either completes every step and writes exactly its destination, or raises a fault and
writes nothing; a MOV, ADD or SUB word cannot fault. -/
def Obligations.ExecuteIsAllOrNothing : Prop :=
  ∀ w s,
    (opField w = 0b11#2 → execute w s = .next { s with raised := some (causeOf (causeField w)) }) ∧
    (opField w ≠ 0b11#2 →
      let rd := Reg.ofIndex (rdField w)
      let a := readReg rd s
      let b := if sField w = 1#1 then immField w else readReg (Reg.ofIndex (rsField w)) s
      ∃ t, execute w s = .next t ∧ t.raised = none ∧ OnlyRegChanges rd { s with raised := none } t ∧
        (opField w = 0b00#2 → readReg rd t = b) ∧
        (opField w = 0b01#2 → (readReg rd t).toNat = (a.toNat + b.toNat) % 65536) ∧
        (opField w = 0b10#2 → ((readReg rd t).toNat : Int) = (a.toNat - b.toNat : Int) % 65536))

/-- R55, R91: the multiplexer chooses by the select bit, and operands are read before the destination is written, also
when source and destination are one register. -/
def Obligations.OperandsReadBeforeWrite : Prop :=
  (∀ w s, sourceValue (sourceOf w) s =
    if w.getLsbD 19 then immField w else readReg (Reg.ofIndex (rsField w)) s) ∧
  (∀ op rd src s, ∃ t, exec (Instr.ofParts op rd src) s = .next t ∧
    readReg rd t = resultOf op (readReg rd s) (sourceValue src s)) ∧
  (∀ r s, ∃ t, exec (.addRR r r) s = .next t ∧ readReg r t = readReg r s + readReg r s) ∧
  (∀ r s, ∃ t, exec (.subRR r r) s = .next t ∧ readReg r t = 0#16) ∧
  (∀ r s, exec (.movRR r r) s = .next s)

/-- R61: ADD and SUB are the integer operations modulo 2^16 and report nothing; MOV, ADD, SUB and ILLEGAL are the only
operations. The signed reading, which the spec derives itself, is not stated here. -/
def Obligations.ArithmeticWrapsSilently : Prop :=
  (∀ a b, (alu .add a b).toNat = (a.toNat + b.toNat) % 65536) ∧
  (∀ a b, ((alu .sub a b).toNat : Int) = (a.toNat - b.toNat : Int) % 65536) ∧
  (∀ op rd src s, ∃ t, exec (Instr.ofParts op rd src) s = .next t ∧ t.raised = s.raised ∧
    readReg rd t = alu op (readReg rd s) (sourceValue src s)) ∧
  (∀ i, (∃ rd src, i = Instr.ofParts .mov rd src) ∨ (∃ rd src, i = Instr.ofParts .add rd src) ∨
    (∃ rd src, i = Instr.ofParts .sub rd src) ∨ ∃ c, i = .illegal c)

/-- The spec's own derivations in 40_alu.md section 3 and R65: the same bits are the two's complement result of a signed
reading; no instruction reads or writes control state. -/
def Obligations.SignedReadingAndNoControlAccess : Prop :=
  (∀ a b : Word, (alu .add a b).toInt = (a.toInt + b.toInt).bmod 65536 ∧
    (alu .sub a b).toInt = (a.toInt - b.toInt).bmod 65536) ∧
  ∀ i (s : State), ∃ t, exec i s = .next t ∧ SameSession s t ∧ t.pending = s.pending ∧ t.response = s.response ∧
    ∀ u, u.regs = s.regs → ∃ v, exec i u = .next v ∧ v.regs = t.regs

/-! ### Host commands -/

/-- R66: each command runs to its end, gives one response of its kind and changes only the state its row lists. -/
def Obligations.CommandsRespondAsTabled : Prop :=
  ∀ cap (s : State) c rest, s.pending = c :: rest → c.inSpec cap = true →
    ∃ t r, Serves cap s rest r t ∧ CommandRow c s t r

/-- R67: EXEC executes one word against the register bank and nothing else. -/
def Obligations.ExecCommandRunsOneWord : Prop :=
  ∀ cap (s : State) w rest, s.pending = .exec w :: rest →
    (isValidWord w = true → ∃ t, Serves cap s rest .ok t ∧ t.regs = wordEffect s.regs w ∧ SameSession s t) ∧
    (isValidWord w = false →
      ∃ t, Serves cap s rest (.fault (causeOf (causeField w))) t ∧ t.regs = s.regs ∧ SameSession s t)

/-- R68: RUN executes its entries in order from index 0, stops at the first fault with its index, keeps the effect of
the entries before it, and neither reads nor writes the step session. -/
def Obligations.RunCommandStopsAtFirstFault : Prop :=
  ∀ cap (s : State) ws rest, s.pending = .run ws :: rest → ws.length ≤ cap →
    ((∀ w ∈ ws, isValidWord w = true) →
      ∃ t, Serves cap s rest .runOk t ∧ t.regs = regsAfter ws s.regs ∧ SameSession s t) ∧
    (∀ k w, ws[k]? = some w → isValidWord w = false → (∀ v ∈ ws.take k, isValidWord v = true) →
      ∃ t, Serves cap s rest (.runFault k (causeOf (causeField w))) t ∧
        t.regs = regsAfter (ws.take k) s.regs ∧ SameSession s t)

/-- R69: STEP captures its program if none is captured, and executes at most the entry at the cursor; with a program
captured its argument is ignored. -/
def Obligations.StepCommandExecutesAtMostOneEntry : Prop :=
  ∀ cap (s : State) ws rest, s.pending = .step ws :: rest → ws.length ≤ cap →
    let prog := if s.captured then s.prog else ws
    let cursor := if s.captured then s.cursor else 0
    (prog.length ≤ cursor →
      ∃ t, Serves cap s rest .complete t ∧ t.regs = s.regs ∧ t.cursor = cursor ∧ t.captured = true ∧ t.prog = prog) ∧
    (∀ w, prog[cursor]? = some w → isValidWord w = false →
      ∃ t, Serves cap s rest (.stepFault (causeOf (causeField w))) t ∧ t.regs = s.regs ∧ t.cursor = cursor ∧
        t.captured = true ∧ t.prog = prog) ∧
    (∀ w, prog[cursor]? = some w → isValidWord w = true →
      ∃ t, Serves cap s rest .executed t ∧ t.regs = wordEffect s.regs w ∧ t.cursor = cursor + 1 ∧
        t.captured = true ∧ t.prog = prog)

/-- R71: SNAPSHOT returns AX, BX, CX, DX in that order and changes nothing; the host shows one line per register. -/
def Obligations.SnapshotReadsTheBank : Prop :=
  (∀ cap (s : State) rest, s.pending = .snapshot :: rest →
    ∃ t, Serves cap s rest (.registers (readReg .ax s) (readReg .bx s) (readReg .cx s) (readReg .dx s)) t ∧
      SameBlock s t) ∧
  (∀ a b c d, displaySnapshot a b c d =
    [regName .ax ++ ": ".toList ++ hex4 a, regName .bx ++ ": ".toList ++ hex4 b,
     regName .cx ++ ": ".toList ++ hex4 c, regName .dx ++ ": ".toList ++ hex4 d]) ∧
  (∀ v, (hex4 v).length = 4 ∧ (∀ c ∈ hex4 v, c ∈ "0123456789ABCDEF".toList) ∧ hexValue (hex4 v) = v.toNat) ∧
  displayReg .ax 255#16 = "AX: 00FF".toList

/-- R72's table: the text operations are the commands on the assembled lines, and the results read as the document's. -/
def Obligations.TextOperationsAreCommands : Prop :=
  (∀ line, executeLine line = .exec (assembleLine line)) ∧
  (∀ text, runLines (lines text) = .run (assembleProgram text)) ∧
  (∀ text, stepLines (lines text) = .step (assembleProgram text)) ∧
  resetSession = .reset ∧ snapshotSession = .snapshot ∧
  (textResult .ok = .ok ∧ (∀ c, textResult (.fault c) = .err c) ∧ textResult .runOk = .ok ∧
    (∀ k c, textResult (.runFault k c) = .errAt k c) ∧ textResult .executed = .okExecuted ∧
    textResult .complete = .okComplete ∧ (∀ c, textResult (.stepFault c) = .err c))

/-- 45_host_interface.md, the spec's derivation R74: after a STEP faulted, any further STEPs, whatever their programs,
fault again and change nothing; only RESET clears the captured program, and it clears the registers too. That their
programs may be of any length is the model's choice (log 5). -/
def Obligations.StepFaultRepeatsUntilReset : Prop :=
  ∀ cap (s : State) w (progs : List (List InstrWord)) rest, s.captured = true → s.prog[s.cursor]? = some w → isValidWord w = false → progs ≠ [] →
    s.pending = progs.map .step ++ .reset :: rest →
    ∃ t u, stepsWith cap progs.length s = .next t ∧ SameBlock s t ∧
      t.response = some (.stepFault (causeOf (causeField w))) ∧ t.pending = .reset :: rest ∧
      Serves cap t rest .ok u ∧ SameBlock State.reset u

/-- 60_exceptions.md R85's testable property (an N-line valid program): the i-th STEP executes line i, and the STEPs
after the last line report Complete and mutate nothing. The later STEPs' programs are ignored at any length (log 5). -/
def Obligations.SteppingRunsTheProgram : Prop :=
  ∀ cap (s : State) ws (progs : List (List InstrWord)) rest, s.captured = false → ws.length ≤ cap → (∀ w ∈ ws, isValidWord w = true) →
    s.pending = .step ws :: (progs.map .step ++ rest) →
    ∃ t, stepsWith cap (progs.length + 1) s = .next t ∧ t.pending = rest ∧
      t.regs = regsAfter (ws.take (progs.length + 1)) s.regs ∧ t.cursor = min (progs.length + 1) ws.length ∧
      t.captured = true ∧ t.prog = ws ∧
      t.response = some (if progs.length + 1 ≤ ws.length then .executed else .complete)

/-- RUN is the sequence of EXECs of its words up to the first fault (45_host_interface.md R67, R68, 20_memory.md R32). -/
def Obligations.RunIsExecSequence : Prop :=
  (∀ cap (s : State) ws, ws.length ≤ cap → (∀ w ∈ ws, isValidWord w = true) →
    ∃ t u, stepWith cap { s with pending := [.run ws] } = .next t ∧
      stepsWith cap ws.length { s with pending := ws.map .exec } = .next u ∧ SameBlock t u ∧
      t.response = some .runOk) ∧
  (∀ cap (s : State) pre w post, (pre ++ w :: post).length ≤ cap → (∀ v ∈ pre, isValidWord v = true) → isValidWord w = false →
    ∃ t u, stepWith cap { s with pending := [.run (pre ++ w :: post)] } = .next t ∧
      stepsWith cap (pre.length + 1) { s with pending := (pre ++ w :: post).map .exec } = .next u ∧ SameBlock t u ∧
      t.response = some (.runFault pre.length (causeOf (causeField w))) ∧
      u.response = some (.fault (causeOf (causeField w))))

/-! ### Faults -/

/-- R75: the five causes and their codes; each code names its cause, and 0, 6 and 7 are no cause's code. -/
def Obligations.FaultCodesAreSpecs : Prop :=
  Cause.code .malformedInstruction = 1#3 ∧ Cause.code .unknownInstruction = 2#3 ∧ Cause.code .unknownRegister = 3#3 ∧
  Cause.code .invalidImmediate = 4#3 ∧ Cause.code .invalidDestination = 5#3 ∧
  (∀ c : Cause, c = .malformedInstruction ∨ c = .unknownInstruction ∨ c = .unknownRegister ∨ c = .invalidImmediate ∨
    c = .invalidDestination) ∧
  (∀ c, causeOf c.code = c) ∧ (∀ c : Cause, c.code ≠ 0#3 ∧ c.code ≠ 6#3 ∧ c.code ≠ 7#3)

/-- R78: a fault changes no register and no session state, earlier effects of a RUN stay, later entries never matter,
and the command returns the cause at once. -/
def Obligations.FaultsArePrecise : Prop :=
  ∀ cap (s : State) rest w, isValidWord w = false →
    (s.pending = .exec w :: rest → stepWith cap s =
      .next { s with pending := rest, raised := none, response := some (.fault (causeOf (causeField w))) }) ∧
    (∀ ws, s.pending = .step ws :: rest → ws.length ≤ cap → s.captured = true → s.prog[s.cursor]? = some w → stepWith cap s =
      .next { s with pending := rest, raised := none, response := some (.stepFault (causeOf (causeField w))) }) ∧
    (∀ pre post, s.pending = .run (pre ++ w :: post) :: rest → (pre ++ w :: post).length ≤ cap →
      (∀ v ∈ pre, isValidWord v = true) → stepWith cap s =
        .next { s with
          pending := rest, raised := none, regs := regsAfter pre s.regs
          response := some (.runFault pre.length (causeOf (causeField w))) })

/-- 10_state.md R23: a fault leaves no trace in the state; no step reads the last response or a raised fault. -/
def Obligations.ResponsesAreNeverRead : Prop :=
  ∀ cap (s : State) r c, s.pending ≠ [] → stepWith cap { s with response := r, raised := c } = stepWith cap s

/-- The model stops exactly where a command LOADS a program longer than the store, which 20_memory.md R26 puts outside the
spec; that it stops with this fault is the model's choice (log 1). A STEP with a program captured loads none: that it goes
on whatever the length of its ignored argument is the model's choice too (log 5). -/
def Obligations.StepsStopOnlyOnOverlongPrograms : Prop :=
  ∀ cap (s : State), (s.safe cap = true → ∃ t, stepWith cap s = .next t) ∧
    (s.safe cap = false → stepWith cap s = .fault .programTooLong)

/-! ### State -/

/-- R13: exactly four general registers, with the names AX, BX, CX, DX at the indices 0, 1, 2, 3. -/
def Obligations.FourRegistersWithIndices : Prop :=
  (Reg.index .ax = 0#2 ∧ Reg.index .bx = 1#2 ∧ Reg.index .cx = 2#2 ∧ Reg.index .dx = 3#2) ∧
  (regName .ax = "AX".toList ∧ regName .bx = "BX".toList ∧ regName .cx = "CX".toList ∧ regName .dx = "DX".toList) ∧
  (∀ r : Reg, r = .ax ∨ r = .bx ∨ r = .cx ∨ r = .dx) ∧ (∀ i r, Reg.ofIndex i = r ↔ i = r.index) ∧
  (∀ s : State, readReg .ax s = s.regs.ax ∧ readReg .bx s = s.regs.bx ∧ readReg .cx s = s.regs.cx ∧
    readReg .dx s = s.regs.dx) ∧
  (∀ r q v s, readReg q (writeReg r v s) = if q = r then v else readReg q s)

/-- R86: between host commands the block is idle and keeps its whole state. -/
def Obligations.IdleBlockKeepsItsState : Prop := ∀ cap (s : State), s.pending = [] → stepWith cap s = .next s

/-- R17: a register is written only by a MOV, ADD or SUB word that is executed and names it as its destination, or by a
reset, which writes all four with zero; SNAPSHOT writes none. RUN executes an entry only if no ILLEGAL one stands before
it. -/
def Obligations.RegistersWrittenOnlyAsStated : Prop :=
  (∀ cap (s : State) t r, stepWith cap s = .next t → readReg r t ≠ readReg r s →
    ∃ c rest, s.pending = c :: rest ∧
      (c = .reset ∨ (∃ w, c = .exec w ∧ WritesReg w r) ∨ 
        (∃ ws k w, c = .run ws ∧ ws[k]? = some w ∧ (∀ v ∈ ws.take k, isValidWord v = true) ∧ WritesReg w r) ∨
        ∃ ws w, c = .step ws ∧
          (if s.captured then s.prog else ws)[if s.captured then s.cursor else 0]? = some w ∧ WritesReg w r)) ∧
  (∀ cap (s : State) rest r, s.pending = .reset :: rest → ∃ t, Serves cap s rest .ok t ∧ readReg r t = 0#16) ∧
  (∀ cap (s : State) rest, s.pending = .snapshot :: rest → ∃ t q, Serves cap s rest q t ∧ t.regs = s.regs)

/-- R19: the exact cases in which the cursor changes. -/
def Obligations.CursorChangesOnlyAsStated : Prop :=
  State.reset.cursor = 0 ∧
  (∀ i (s : State), ∃ t, exec i s = .next t ∧ t.cursor = s.cursor) ∧
  (∀ cap (s : State) t c rest, s.pending = c :: rest → stepWith cap s = .next t →
    match c with
    | .exec _ => t.cursor = s.cursor
    | .run _ => t.cursor = s.cursor
    | .snapshot => t.cursor = s.cursor
    | .reset => t.cursor = 0
    | .step _ =>
      let start := if s.captured then s.cursor else 0
      (t.response = some .executed ∧ t.cursor = start + 1) ∨
        ((t.response = some .complete ∨ ∃ f, t.response = some (.stepFault f)) ∧ t.cursor = start))

/-- R34: no instruction writes the instruction store; RUN executes the program it carries, up to its first ILLEGAL entry,
whatever is captured; STEP captures the program of its first call, which then stays as it is, whatever programs later
commands carry, until a RESET. -/
def Obligations.CapturedProgramIsFrozen : Prop :=
  (∀ i (s : State), ∃ t, exec i s = .next t ∧ t.prog = s.prog ∧ t.captured = s.captured) ∧
  (∀ cap (s : State) t, stepWith cap s = .next t → s.captured = true → (∀ rest, s.pending ≠ .reset :: rest) →
    t.prog = s.prog ∧ t.captured = true) ∧
  (∀ cap (s : State) ws vs rest, s.captured = true → ws.length ≤ cap → vs.length ≤ cap →
    stepWith cap { s with pending := .step ws :: rest } = stepWith cap { s with pending := .step vs :: rest }) ∧
  (∀ cap (s : State) ws rest p b n, ws.length ≤ cap →
    ∃ t, stepWith cap { s with pending := .run ws :: rest } = .next t ∧ SameSession s t ∧
      ((∀ w ∈ ws, isValidWord w = true) → t.regs = regsAfter ws s.regs) ∧
      (∀ k w, ws[k]? = some w → isValidWord w = false → (∀ v ∈ ws.take k, isValidWord v = true) →
        t.regs = regsAfter (ws.take k) s.regs) ∧
      stepWith cap { s with pending := .run ws :: rest, prog := p, captured := b, cursor := n } =
        .next { t with prog := p, captured := b, cursor := n }) ∧
  (∀ cap (s : State) ws rest, s.pending = .step ws :: rest → s.captured = false → ws.length ≤ cap →
    ∃ t, stepWith cap s = .next t ∧ t.prog = ws ∧ t.captured = true)

/-- Every step keeps the session's invariant (10_state.md R20, R24, 20_memory.md R26), from every state that meets it. -/
def Obligations.StepKeepsSessionInvariant : Prop :=
  (∀ cap (s : State) t, s.Inv cap → stepWith cap s = .next t → t.Inv cap) ∧
  (∀ s t, s.Inv Config.progCap → step s = .next t → t.Inv Config.progCap)

/-- The invariant holds at power-on, and the host presenting a command keeps it. -/
def Obligations.PowerOnMeetsSessionInvariant : Prop :=
  (∀ cap, State.reset.Inv cap) ∧ ∀ cap (s : State) c, s.Inv cap → (present c s).Inv cap

/-! ### Fetching -/

/-- STEP, RUN and EXEC run the decoded word by `exec` (40_alu.md R56, 45_host_interface.md R67 to R69). Around it a STEP, on
the captured program or on the one it captures, moves the cursor past the word if it completes, and the command responds.
Of RUN: the entry `k` it reaches runs by `exec` on the effect of the entries before it; if it completes, the RUN of the
entries up to it ends in the state `exec` gives. That a STEP with a program captured does so whatever the length of its
ignored argument is the model's choice (log 5). -/
def Obligations.StepRunsDecodedWord : Prop :=
  (∀ s, step s = stepWith Config.progCap s) ∧
  (∀ cap (s : State) ws rest w i, s.pending = .step ws :: rest → (s.captured = true ∨ ws.length ≤ cap) →
    let prog := if s.captured then s.prog else ws
    let cursor := if s.captured then s.cursor else 0
    prog[cursor]? = some w → decode w = i → i.wellFormed = true →
    ∃ t, exec i { s with
        pending := rest, raised := none, captured := true, prog := prog, cursor := cursor } = .next t ∧
      stepWith cap s = match t.raised with
        | some c => .next { t with raised := none, response := some (.stepFault c) }
        | none => .next { t with cursor := t.cursor + 1, response := some .executed }) ∧
  (∀ cap (s : State) ws rest k w i, s.pending = .run ws :: rest → ws.length ≤ cap → ws[k]? = some w →
    (∀ v ∈ ws.take k, isValidWord v = true) → decode w = i → i.wellFormed = true →
    ∃ t, exec i { s with pending := rest, raised := none, regs := regsAfter (ws.take k) s.regs } = .next t ∧
      match t.raised with
      | some c => stepWith cap s = .next { t with raised := none, response := some (.runFault k c) }
      | none => stepWith cap { s with pending := .run (ws.take (k + 1)) :: rest } =
          .next { t with response := some .runOk }) ∧
  (∀ cap (s : State) rest w i, s.pending = .exec w :: rest → decode w = i → i.wellFormed = true →
    ∃ t, exec i { s with pending := rest, raised := none } = .next t ∧
      stepWith cap s = match t.raised with
        | some c => .next { t with raised := none, response := some (.fault c) }
        | none => .next { t with response := some .ok })

/-- A word placed by `withFetchWord` is the one the next step fetches, decodes and runs. The placing is the model's own
interface, and so is that it holds also where the placed word makes the captured program longer than PROG_CAP (log 12). -/
def Obligations.PlacedWordRunsNext : Prop :=
  ∀ (s : State) nbits w i, decodeTableWord nbits w = some i →
    ∃ t, exec i { s.withFetchWord nbits w with pending := s.pending, raised := none } = .next t ∧
      (step (s.withFetchWord nbits w) = match t.raised with
        | some c => .next { t with raised := none, response := some (.stepFault c) }
        | none => .next { t with cursor := t.cursor + 1, response := some .executed }) ∧
      (s.withFetchWord nbits w).regs = s.regs ∧ (s.withFetchWord nbits w).cursor = s.cursor

/-! ### Encoding -/

/-- R36: the one format, its fields at their bits, and the word as a value. -/
def Obligations.WordLayoutIsFixed : Prop :=
  (∀ op rd s rs z imm, (packFields op rd s rs z imm).toNat =
    op.toNat * 2 ^ 22 + rd.toNat * 2 ^ 20 + s.toNat * 2 ^ 19 + rs.toNat * 2 ^ 17 + z.toNat * 2 ^ 16 + imm.toNat) ∧
  (∀ w, packFields (opField w) (rdField w) (sField w) (rsField w) (zField w) (immField w) = w) ∧
  (∀ w, opField w = 0b11#2 → (causeField w).toNat = w.toNat % 8)

/-- Decode and encode agree on every instruction, with every operand at every value (30_encoding.md section 1). -/
def Obligations.DecodeOfEncode : Prop := ∀ i : Instr, i.wellFormed = true → decode (encode i) = i

/-- Encoding what a word decodes to gives the word with its ignored fields cleared, and nothing else lost
(30_encoding.md section 1). -/
def Obligations.EncodeOfDecodeIsCanonical : Prop :=
  (∀ w, encode (decode w) = canonicalWord w) ∧ (∀ i, canonicalWord (encode i) = encode i) ∧
  (∀ w v, decode w = decode v ↔ canonicalWord w = canonicalWord v)

/-- R40: words that differ only in ignored fields execute alike, and the assembler writes zero into every one. -/
def Obligations.IgnoredFieldsDoNotMatter : Prop :=
  (∀ w v s, opField w = opField v →
    (opField w = 0b11#2 → causeField w = causeField v) →
    (opField w ≠ 0b11#2 → rdField w = rdField v ∧ sField w = sField v ∧
      (sField w = 1#1 → immField w = immField v) ∧ (sField w = 0#1 → rsField w = rsField v)) →
    execute w s = execute v s) ∧
  (∀ line, canonicalWord (assembleLine line) = assembleLine line) ∧
  (∀ w, canonicalWord w = w ↔
    (opField w = 0b11#2 → w.toNat % 2 ^ 22 < 8) ∧
    (opField w ≠ 0b11#2 → zField w = 0#1 ∧ (sField w = 1#1 → rsField w = 0#2) ∧ (sField w = 0#1 → immField w = 0#16)))

/-- R41: the ILLEGAL words, their causes, and those the assembler writes. -/
def Obligations.IllegalWordsNameCauses : Prop :=
  (∀ w, opField w = 0b11#2 → decode w = .illegal (causeField w) ∧ (causeField w).toNat = w.toNat % 8) ∧
  causeOf 1#3 = .malformedInstruction ∧ causeOf 2#3 = .unknownInstruction ∧ causeOf 3#3 = .unknownRegister ∧
  causeOf 4#3 = .invalidImmediate ∧ causeOf 5#3 = .invalidDestination ∧
  (∀ c, c = 0#3 ∨ c = 6#3 ∨ c = 7#3 → causeOf c = .unknownInstruction) ∧
  (∀ line, opField (assembleLine line) = 0b11#2 → ∃ c : Cause, assembleLine line = 0xC00000#24 ||| c.code.setWidth 24) ∧
  (∀ c : BitVec 3, encodeIllegal c = 0xC00000#24 ||| c.setWidth 24 ∧ decode (encodeIllegal c) = .illegal c)

/-- R43: the words with opcode 0b11 are the only illegal encodings, the upper quarter of all words; every other word is
a MOV, ADD or SUB. -/
def Obligations.OnlyOpcodeThreeIsIllegal : Prop :=
  (∀ w, (∃ c, decode w = .illegal c) ↔ opField w = 0b11#2) ∧
  (∀ w, opField w = 0b11#2 ↔ 3 * 2 ^ 22 ≤ w.toNat) ∧
  (∀ w, opField w ≠ 0b11#2 → ∃ op, opField w = Op.code op ∧
    decode w = Instr.ofParts op (Reg.ofIndex (rdField w)) (sourceOf w)) ∧
  (∀ w s, ∃ t, execute w s = .next t ∧ (t.raised ≠ none ↔ opField w = 0b11#2))

/-- The decoder follows spec/opcode_table.json: a word matches exactly the row of the instruction it decodes to. -/
def Obligations.DecoderFollowsOpcodeTable : Prop :=
  (∀ w, (decode w).row ∈ opcodeTable) ∧ (∀ w r, r ∈ opcodeTable → (r.has w = true ↔ r = (decode w).row))

/-- Words written out from the spec's encoding decode to the instructions they stand for (30_encoding.md section 1). -/
def Obligations.SampleWordsDecode : Prop :=
  decode 0b000100000000000000000000#24 = .movRR .bx .ax ∧ decode 0b001110001000000000000000#24 = .movRI .dx 0x8000#16 ∧
  decode 0b011001100000000000000000#24 = .addRR .cx .dx ∧ decode 0b010110001000000000000000#24 = .addRI .bx 0x8000#16 ∧
  decode 0b101001100000000000000000#24 = .subRR .cx .dx ∧ decode 0b100010000000000000000001#24 = .subRI .ax 0x0001#16 ∧
  decode 0b110111111111111111111000#24 = .illegal 0#3

/-- Numbers of the opcode table: every number below 2^24 decodes as its word, and a wider one is rejected by name.
That rejection is the model's choice (log 7). -/
def Obligations.TableNumbersDecodeOrAreRejected : Prop :=
  (∀ w, w < 2 ^ 24 → decodeTableWord 24 w = some (decode (BitVec.ofNat 24 w))) ∧
  (∀ n, 2 ^ 24 ≤ n → decodeNumber n = .error .widerThanAWord)

/-! ### Assembler -/

/-- R44: the text is trimmed, cut at every line feed, and line k becomes entry k; a blank line is malformed. -/
def Obligations.LinesOfProgramText : Prop :=
  (∀ text, ∃ pre post, text = pre ++ trim text ++ post ∧ (∀ c ∈ pre ++ post, isSpace c = true)) ∧
  (∀ text c, (trim text).head? = some c ∨ (trim text).getLast? = some c → isSpace c = false) ∧
  (∀ text, trim text = [] → lines text = []) ∧
  (∀ text, trim text ≠ [] → List.intercalate ['\n'] (lines text) = trim text ∧ ∀ l ∈ lines text, '\n' ∉ l) ∧
  (∀ text (k : Nat), (assembleProgram text)[k]? = (lines text)[k]?.map assembleLine) ∧
  (∀ l, (∀ c ∈ l, isSpace c = true) → assembleLine l = illegalWord .malformedInstruction)

/-- R45: the tokens of a line are its maximal non-empty runs of characters other than the six whitespace characters; a
token with a non-ASCII character fails whichever check it meets. -/
def Obligations.TokensAreMaximalRuns : Prop :=
  (∀ c, isSpace c = true ↔ c.toNat ∈ [0x20, 0x09, 0x0A, 0x0B, 0x0C, 0x0D]) ∧
  (∀ line, ∀ t ∈ tokens line, t ≠ [] ∧ ∀ c ∈ t, isSpace c = false) ∧
  (∀ pre t post, t ≠ [] → (∀ c ∈ t, isSpace c = false) → (∀ c, pre.getLast? = some c → isSpace c = true) →
    (∀ c, post.head? = some c → isSpace c = true) → tokens (pre ++ t ++ post) = tokens pre ++ t :: tokens post) ∧
  (∀ line, (∀ c ∈ line, isSpace c = true) → tokens line = []) ∧
  isSpace ',' = false ∧
  (∀ t c, c ∈ t → 128 ≤ c.toNat →
    regOfName t = none ∧ opOfMnemonic (asciiUpper t) = none ∧ isHexDigitString t = false)

/-- R46: fewer than three tokens is malformed, and tokens after the third are ignored. -/
def Obligations.LineArity : Prop :=
  (∀ line, (tokens line).length < 3 → assembleLine line = illegalWord .malformedInstruction) ∧
  (∀ l k, 3 ≤ (tokens l).length → (tokens l).take 3 = (tokens k).take 3 → assembleLine l = assembleLine k)

/-- R47: the mnemonic is compared in ASCII upper case and selects the opcode; any other is unknown. -/
def Obligations.MnemonicSelectsOpcode : Prop :=
  (∀ c, 0x61 ≤ c.toNat ∧ c.toNat ≤ 0x7A → (upperChar c).toNat = c.toNat - 0x20) ∧
  (∀ c, ¬(0x61 ≤ c.toNat ∧ c.toNat ≤ 0x7A) → upperChar c = c) ∧
  (∀ t, asciiUpper t = t.map upperChar) ∧
  (∀ op, opOfMnemonic (mnemonic op) = some op) ∧
  (mnemonic .mov = "MOV".toList ∧ mnemonic .add = "ADD".toList ∧ mnemonic .sub = "SUB".toList) ∧
  (∀ line m d t rest op, tokens line = m :: d :: t :: rest → asciiUpper m = mnemonic op →
    opField (assembleLine line) = op.code ∨ opField (assembleLine line) = 0b11#2) ∧
  (∀ line m d t rest, tokens line = m :: d :: t :: rest → (∀ op, asciiUpper m ≠ mnemonic op) →
    assembleLine line = illegalWord .unknownInstruction) ∧
  asciiUpper "mov".toList = mnemonic .mov ∧ asciiUpper "Mov".toList = mnemonic .mov

/-- R48: the destination token. -/
def Obligations.DestinationToken : Prop :=
  (∀ line m d t rest op, tokens line = m :: d :: t :: rest → asciiUpper m = mnemonic op →
    ((∃ h, d = '#' :: h) → assembleLine line = illegalWord .invalidDestination) ∧
    (NoHash d → NoRegister d → assembleLine line = illegalWord .unknownRegister) ∧
    (∀ r, d = regName r → opField (assembleLine line) ≠ 0b11#2 → rdField (assembleLine line) = r.index)) ∧
  (regName .ax = "AX".toList ∧ regName .bx = "BX".toList ∧ regName .cx = "CX".toList ∧ regName .dx = "DX".toList) ∧
  NoRegister "ax".toList

/-- R49: the source token and the fields it sets. -/
def Obligations.SourceToken : Prop :=
  ∀ line m rd t rest op, tokens line = m :: regName rd :: t :: rest → asciiUpper m = mnemonic op →
    (∀ h, t = '#' :: h → isHexDigitString h = true →
      assembleLine line = packFields op.code rd.index 1#1 0b00#2 0#1 (BitVec.ofNat 16 (hexValue h % 2 ^ 16))) ∧
    (∀ h, t = '#' :: h → isHexDigitString h = false → assembleLine line = illegalWord .invalidImmediate) ∧
    (∀ rs, t = regName rs → assembleLine line = packFields op.code rd.index 0#1 rs.index 0#1 0x0000#16) ∧
    (NoHash t → NoRegister t → assembleLine line = illegalWord .unknownRegister)

/-- R50: hex digit strings and their values. -/
def Obligations.HexDigitStrings : Prop :=
  (∀ h, isHexDigitString h = true ↔ h ≠ [] ∧ ∀ c ∈ h, c ∈ "0123456789abcdefABCDEF".toList) ∧
  (∀ k : Fin 16, hexDigit ("0123456789abcdef".toList.getD k ' ') = some k.val ∧
    hexDigit ("0123456789ABCDEF".toList.getD k ' ') = some k.val) ∧
  (∀ c d, hexDigit c = some d → hexValue [c] = d) ∧
  (∀ h c d, hexDigit c = some d → hexValue (h ++ [c]) = 16 * hexValue h + d) ∧
  (∀ n h, hexValue (List.replicate n '0' ++ h) = hexValue h) ∧
  (∀ v : Nat, ∃ h, isHexDigitString h = true ∧ hexValue h = v) ∧
  (∀ s ∈ ["", "+1", "-1", "0x10", "1_0", "#1"], isHexDigitString s.toList = false) ∧
  (∀ h, isHexDigitString h = true → parseSource ('#' :: h) = .ok (.imm (BitVec.ofNat 16 (hexValue h % 2 ^ 16))))

/-- The spec's derivation R52: reducing an immediate at assembly loses nothing. -/
def Obligations.ImmediateReductionLosesNothing : Prop :=
  ∀ (a : Word) (v : Nat),
    (alu .mov a (BitVec.ofNat 16 v)).toNat = v % 65536 ∧
    (alu .add a (BitVec.ofNat 16 v)).toNat = (a.toNat + v) % 65536 ∧
    ((alu .sub a (BitVec.ofNat 16 v)).toNat : Int) = ((a.toNat : Int) - v) % 65536

/-- R77: the order in which a line's defects are looked for, and the rule's four examples. -/
def Obligations.FirstDefectIsReported : Prop :=
  (∀ line, (tokens line).length < 3 → assembleLine line = illegalWord .malformedInstruction) ∧
  (∀ line m d t rest, tokens line = m :: d :: t :: rest →
    ((∀ op, asciiUpper m ≠ mnemonic op) → assembleLine line = illegalWord .unknownInstruction) ∧
    (∀ op, asciiUpper m = mnemonic op →
      ((∃ h, d = '#' :: h) → assembleLine line = illegalWord .invalidDestination) ∧
      (NoHash d → NoRegister d → assembleLine line = illegalWord .unknownRegister) ∧
      (∀ rd, d = regName rd →
        (∀ h, t = '#' :: h → isHexDigitString h = false → assembleLine line = illegalWord .invalidImmediate) ∧
        (NoHash t → NoRegister t → assembleLine line = illegalWord .unknownRegister) ∧
        ((∃ h, t = '#' :: h ∧ isHexDigitString h = true) ∨ (∃ rs, t = regName rs) →
          opField (assembleLine line) = op.code)))) ∧
  assembleLine "FOO #1 ZZ".toList = illegalWord .unknownInstruction ∧
  assembleLine "MOV #1 ZZ".toList = illegalWord .invalidDestination ∧
  assembleLine "MOV ZZ #G".toList = illegalWord .unknownRegister ∧
  assembleLine "MOV AX #G".toList = illegalWord .invalidImmediate

/-- The spec's derivation in R54: assembling the canonical spelling of a canonical word that is not ILLEGAL gives the
word back. -/
def Obligations.AssembleOfSpell : Prop :=
  ∀ w, canonicalWord w = w → opField w ≠ 0b11#2 → assembleLine (spell w) = w
end

