-- ==== Sys2Proof/Laws/Assembler.lean ====
section
/-!
SUPPORT. Small lemmas about the assembler's pieces.
-/

namespace Sys2Proof.Machine

@[simp] theorem tokens_nil : tokens [] = [] := rfl

theorem tokens_of_space {c : Char} (h : isSpace c = true) (cs : Text) : tokens (c :: cs) = tokens cs := by
  simp [tokens, h]

theorem tokens_of_last {c : Char} {cs : Text} (h : isSpace c = false) (hs : startsToken cs = false) :
    tokens (c :: cs) = [c] :: tokens cs := by
  simp [tokens, h, hs]

theorem tokens_of_more {c : Char} {cs : Text} (h : isSpace c = false) (hs : startsToken cs = true) :
    tokens (c :: cs) = extendFirst c (tokens cs) := by
  simp [tokens, h, hs]

@[simp] theorem regOfName_regName (r : Reg) : regOfName (regName r) = some r := by cases r <;> rfl

@[simp] theorem opOfMnemonic_mnemonic (op : Op) : opOfMnemonic (mnemonic op) = some op := by cases op <;> rfl

@[simp] theorem asciiUpper_mnemonic (op : Op) : asciiUpper (mnemonic op) = mnemonic op := by cases op <;> decide

/-- The only names of registers are the four of R13. -/
theorem regOfName_eq_some {t : Text} {r : Reg} (h : regOfName t = some r) : t = regName r := by
  unfold regOfName at h
  split at h
  · cases h; assumption
  · split at h
    · cases h; assumption
    · split at h
      · cases h; assumption
      · split at h
        · cases h; assumption
        · cases h

/-- The only upper-case mnemonics are the three of R37. -/
theorem opOfMnemonic_eq_some {t : Text} {op : Op} (h : opOfMnemonic t = some op) : t = mnemonic op := by
  unfold opOfMnemonic at h
  split at h
  · cases h; assumption
  · split at h
    · cases h; assumption
    · split at h
      · cases h; assumption
      · cases h

@[simp] theorem parseDest_immediate (h : Text) : parseDest ('#' :: h) = .error .invalidDestination := rfl

@[simp] theorem parseDest_regName (r : Reg) : parseDest (regName r) = .ok r := by cases r <;> rfl

@[simp] theorem parseSource_regName (r : Reg) : parseSource (regName r) = .ok (.reg r) := by cases r <;> rfl

theorem parseSource_immediate {h : Text} (hx : isHexDigitString h = true) :
    parseSource ('#' :: h) = .ok (.imm (BitVec.ofNat 16 (hexValue h))) := by
  simp [parseSource, hx]

/-- One more digit at the end of a hex digit string. -/
theorem hexValue_append_singleton (h : Text) (c : Char) :
    hexValue (h ++ [c]) = 16 * hexValue h + (hexDigit c).getD 0 := by
  simp [hexValue]

end Sys2Proof.Machine
end

