-- ==== Sys2Proof/Laws/Decode.lean ====
section
/-!
SUPPORT. Small lemmas about the register indices, the opcode field and the fields of a packed word.
-/

namespace Sys2Proof

@[simp] theorem Reg.ofIndex_index (r : Reg) : Reg.ofIndex r.index = r := by cases r <;> rfl

@[simp] theorem Reg.index_ofIndex (i : BitVec 2) : (Reg.ofIndex i).index = i := by revert i; decide

@[simp] theorem Op.ofCode_code (op : Op) : Op.ofCode op.code = some op := by cases op <;> rfl

@[simp] theorem Op.ofCode_illegal : Op.ofCode 0b11#2 = none := rfl

/-- An opcode field selects an operation, whose code it is, or it is `0b11`. -/
theorem Op.ofCode_cases (c : BitVec 2) : (∃ op, Op.ofCode c = some op ∧ c = op.code) ∨ (Op.ofCode c = none ∧ c = 0b11#2) := by
  have h : c = 0b00#2 ∨ c = 0b01#2 ∨ c = 0b10#2 ∨ c = 0b11#2 := by revert c; decide
  rcases h with rfl | rfl | rfl | rfl
  · exact .inl ⟨.mov, rfl, rfl⟩
  · exact .inl ⟨.add, rfl, rfl⟩
  · exact .inl ⟨.sub, rfl, rfl⟩
  · exact .inr ⟨rfl, rfl⟩

section Packed

variable (op rd rs : BitVec 2) (s z : BitVec 1) (imm16 : Word)

@[simp] theorem opField_packFields : opField (packFields op rd s rs z imm16) = op := by
  ext j hj
  obtain rfl | rfl : j = 0 ∨ j = 1 := by omega
  all_goals simp [opField, packFields]

@[simp] theorem rdField_packFields : rdField (packFields op rd s rs z imm16) = rd := by
  ext j hj
  obtain rfl | rfl : j = 0 ∨ j = 1 := by omega
  all_goals simp [rdField, packFields]

@[simp] theorem sField_packFields : sField (packFields op rd s rs z imm16) = s := by
  ext j hj
  obtain rfl : j = 0 := by omega
  simp [sField, packFields]

@[simp] theorem rsField_packFields : rsField (packFields op rd s rs z imm16) = rs := by
  ext j hj
  obtain rfl | rfl : j = 0 ∨ j = 1 := by omega
  all_goals simp [rsField, packFields]

@[simp] theorem zField_packFields : zField (packFields op rd s rs z imm16) = z := by
  ext j hj
  obtain rfl : j = 0 := by omega
  simp [zField, packFields]

@[simp] theorem immField_packFields : immField (packFields op rd s rs z imm16) = imm16 := by
  ext j hj
  have h24 : j < 24 := by omega
  simp [immField, packFields, h24, hj]
  omega

@[simp] theorem causeField_packFields : causeField (packFields op rd s rs z imm16) = imm16.extractLsb' 0 3 := by
  ext j hj
  have h24 : j < 24 := by omega
  simp [causeField, packFields, h24]
  omega

end Packed

/-- Of an immediate form's word the row masks of the opcode table keep the opcode and the select bit. -/
theorem packFields_imm_and_mask (op rd : BitVec 2) (v : Word) :
    packFields op rd 1#1 0#2 0#1 v &&& 0xC80000#24 = packFields op 0#2 1#1 0#2 0#1 0#16 := by
  apply BitVec.eq_of_getLsbD_eq
  intro j hj
  have hcases : j < 16 ∨ j = 16 ∨ j = 17 ∨ j = 18 ∨ j = 19 ∨ j = 20 ∨ j = 21 ∨ j = 22 ∨ j = 23 := by omega
  rcases hcases with h | rfl | rfl | rfl | rfl | rfl | rfl | rfl | rfl
  · have hm : ∀ k : Fin 16, (0xC80000#24).getLsbD k = false ∧ (0x80000#24).getLsbD k = false := by decide
    have hj16 := hm ⟨j, h⟩
    simp [packFields, hj16]
    omega
  all_goals simp [packFields]

/-- Decoding a word whose opcode field is an operation's code. -/
theorem decode_of_op {w : InstrWord} {op : Op} (h : opField w = op.code) :
    decode w = Instr.ofParts op (Reg.ofIndex (rdField w)) (sourceOf w) := by
  simp [decode, h]

/-- Encoding by parts is what the encoder does. -/
theorem encode_ofParts (op : Op) (rd : Reg) (src : Source) : encode (Instr.ofParts op rd src) = encodeParts op rd src := by
  cases op <;> cases src <;> rfl

@[simp] theorem opField_encodeParts (op : Op) (rd : Reg) (src : Source) : opField (encodeParts op rd src) = op.code := by
  cases src <;> simp [encodeParts]

@[simp] theorem opField_encodeIllegal (c : BitVec 3) : opField (encodeIllegal c) = 0b11#2 := by simp [encodeIllegal]

/-- A number below 2^24 decodes as its word. -/
theorem decodeTableWord_of_isWordValue {nbits w : Nat} (h : isWordValue (w % 2 ^ nbits) = true) :
    decodeTableWord nbits w = some (decode (tableWord nbits w)) := by
  simp [decodeTableWord, decodeNumber, tableWord, h]

/-- Decoding an ILLEGAL word. -/
theorem decode_of_illegal {w : InstrWord} (h : opField w = 0b11#2) : decode w = .illegal (causeField w) := by
  simp [decode, h]

end Sys2Proof
end

