-- ==== Sys2Proof/Laws/State.lean ====
section
/-!
SUPPORT. One lemma per field per update of State, and what a read of a register says after each update.
-/

namespace Sys2Proof.Machine

/-! ### The register bank -/

@[simp] theorem RegBank.get_set_same (b : RegBank) (r : Reg) (v : Word) : (b.set r v).get r = v := by cases r <;> rfl

@[simp] theorem RegBank.get_set_other (b : RegBank) {r q : Reg} (v : Word) (h : q ≠ r) :
    (b.set r v).get q = b.get q := by
  cases r <;> cases q <;> first | rfl | exact absurd rfl h

@[simp] theorem RegBank.set_get_same (b : RegBank) (r : Reg) : b.set r (b.get r) = b := by cases r <;> rfl

theorem RegBank.ext_get {b c : RegBank} (h : ∀ r, b.get r = c.get r) : b = c := by
  have ha := h .ax
  have hb := h .bx
  have hc := h .cx
  have hd := h .dx
  cases b
  cases c
  simp_all [RegBank.get]

/-! ### Writing a register -/

@[simp] theorem writeReg_regs (r : Reg) (v : Word) (s : State) : (writeReg r v s).regs = s.regs.set r v := rfl
@[simp] theorem writeReg_cursor (r : Reg) (v : Word) (s : State) : (writeReg r v s).cursor = s.cursor := rfl
@[simp] theorem writeReg_captured (r : Reg) (v : Word) (s : State) : (writeReg r v s).captured = s.captured := rfl
@[simp] theorem writeReg_prog (r : Reg) (v : Word) (s : State) : (writeReg r v s).prog = s.prog := rfl
@[simp] theorem writeReg_raised (r : Reg) (v : Word) (s : State) : (writeReg r v s).raised = s.raised := rfl
@[simp] theorem writeReg_pending (r : Reg) (v : Word) (s : State) : (writeReg r v s).pending = s.pending := rfl
@[simp] theorem writeReg_response (r : Reg) (v : Word) (s : State) : (writeReg r v s).response = s.response := rfl

@[simp] theorem readReg_writeReg_same (r : Reg) (v : Word) (s : State) : readReg r (writeReg r v s) = v :=
  RegBank.get_set_same s.regs r v

@[simp] theorem readReg_writeReg_other {r q : Reg} (v : Word) (s : State) (h : q ≠ r) :
    readReg q (writeReg r v s) = readReg q s :=
  RegBank.get_set_other s.regs v h

/-! ### Raising a fault -/

@[simp] theorem raiseFault_regs (c : Cause) (s : State) : (raiseFault c s).regs = s.regs := rfl
@[simp] theorem raiseFault_cursor (c : Cause) (s : State) : (raiseFault c s).cursor = s.cursor := rfl
@[simp] theorem raiseFault_captured (c : Cause) (s : State) : (raiseFault c s).captured = s.captured := rfl
@[simp] theorem raiseFault_prog (c : Cause) (s : State) : (raiseFault c s).prog = s.prog := rfl
@[simp] theorem raiseFault_raised (c : Cause) (s : State) : (raiseFault c s).raised = some c := rfl
@[simp] theorem raiseFault_pending (c : Cause) (s : State) : (raiseFault c s).pending = s.pending := rfl
@[simp] theorem raiseFault_response (c : Cause) (s : State) : (raiseFault c s).response = s.response := rfl
@[simp] theorem readReg_raiseFault (r : Reg) (c : Cause) (s : State) : readReg r (raiseFault c s) = readReg r s := rfl

/-! ### Responding -/

@[simp] theorem respond_regs (r : Response) (s : State) : (respond r s).regs = s.regs := rfl
@[simp] theorem respond_cursor (r : Response) (s : State) : (respond r s).cursor = s.cursor := rfl
@[simp] theorem respond_captured (r : Response) (s : State) : (respond r s).captured = s.captured := rfl
@[simp] theorem respond_prog (r : Response) (s : State) : (respond r s).prog = s.prog := rfl
@[simp] theorem respond_raised (r : Response) (s : State) : (respond r s).raised = none := rfl
@[simp] theorem respond_pending (r : Response) (s : State) : (respond r s).pending = s.pending := rfl
@[simp] theorem respond_response (r : Response) (s : State) : (respond r s).response = some r := rfl
@[simp] theorem readReg_respond (q : Reg) (r : Response) (s : State) : readReg q (respond r s) = readReg q s := rfl

/-! ### Capturing a program -/

@[simp] theorem capture_regs (ws : List InstrWord) (s : State) : (capture ws s).regs = s.regs := rfl
@[simp] theorem capture_cursor (ws : List InstrWord) (s : State) : (capture ws s).cursor = 0 := rfl
@[simp] theorem capture_captured (ws : List InstrWord) (s : State) : (capture ws s).captured = true := rfl
@[simp] theorem capture_prog (ws : List InstrWord) (s : State) : (capture ws s).prog = ws := rfl
@[simp] theorem capture_raised (ws : List InstrWord) (s : State) : (capture ws s).raised = s.raised := rfl
@[simp] theorem capture_pending (ws : List InstrWord) (s : State) : (capture ws s).pending = s.pending := rfl
@[simp] theorem capture_response (ws : List InstrWord) (s : State) : (capture ws s).response = s.response := rfl

/-! ### Presenting a command -/

@[simp] theorem present_regs (c : Command) (s : State) : (present c s).regs = s.regs := rfl
@[simp] theorem present_cursor (c : Command) (s : State) : (present c s).cursor = s.cursor := rfl
@[simp] theorem present_captured (c : Command) (s : State) : (present c s).captured = s.captured := rfl
@[simp] theorem present_prog (c : Command) (s : State) : (present c s).prog = s.prog := rfl
@[simp] theorem present_raised (c : Command) (s : State) : (present c s).raised = s.raised := rfl
@[simp] theorem present_pending (c : Command) (s : State) : (present c s).pending = s.pending ++ [c] := rfl
@[simp] theorem present_response (c : Command) (s : State) : (present c s).response = s.response := rfl

/-! ### Placing a word to fetch -/

@[simp] theorem placeFetch_regs (w : InstrWord) (s : State) : (placeFetch w s).regs = s.regs := rfl
@[simp] theorem placeFetch_cursor (w : InstrWord) (s : State) : (placeFetch w s).cursor = s.cursor := rfl
@[simp] theorem placeFetch_captured (w : InstrWord) (s : State) : (placeFetch w s).captured = true := rfl
@[simp] theorem placeFetch_prog (w : InstrWord) (s : State) :
    (placeFetch w s).prog = placeEntry s.prog s.cursor w := rfl
@[simp] theorem placeFetch_raised (w : InstrWord) (s : State) : (placeFetch w s).raised = s.raised := rfl
@[simp] theorem placeFetch_pending (w : InstrWord) (s : State) :
    (placeFetch w s).pending = .step [] :: s.pending := rfl
@[simp] theorem placeFetch_response (w : InstrWord) (s : State) : (placeFetch w s).response = s.response := rfl

/-- The entry placed is the one found there. -/
theorem placeEntry_getElem? (prog : List InstrWord) (k : Nat) (w : InstrWord) : (placeEntry prog k w)[k]? = some w := by
  have hlen : k - (prog.take k ++ List.replicate (k - prog.length) 0#24).length = 0 := by simp; omega
  rw [placeEntry, ← List.append_assoc, List.getElem?_append_right (by simp; omega), hlen]
  rfl

end Sys2Proof.Machine
end

