-- ==== Sys2Proof/Laws/Exec.lean ====
section
/-!
SUPPORT. What the ALU, the multiplexer, the shared datapath and `exec` do, said once.
-/

namespace Sys2Proof.Machine

/-- The ALU's sum is bit-vector addition. -/
@[simp] theorem aluAdd_eq (a b : Word) : aluAdd a b = a + b := by simp [aluAdd, BitVec.ofNat_add]

/-- The ALU's difference is bit-vector subtraction. -/
@[simp] theorem aluSub_eq (a b : Word) : aluSub a b = a - b := by
  apply BitVec.eq_of_toNat_eq
  have ha := a.isLt
  have hb := b.isLt
  simp only [aluSub, BitVec.toNat_ofInt, BitVec.toNat_sub]
  omega

@[simp] theorem alu_mov (a b : Word) : alu .mov a b = b := rfl
@[simp] theorem alu_add (a b : Word) : alu .add a b = a + b := aluAdd_eq a b
@[simp] theorem alu_sub (a b : Word) : alu .sub a b = a - b := aluSub_eq a b

@[simp] theorem sourceValue_reg (rs : Reg) (s : State) : sourceValue (.reg rs) s = readReg rs s := rfl
@[simp] theorem sourceValue_imm (v : Word) (s : State) : sourceValue (.imm v) s = v := rfl

/-- The datapath is one register write; with the lemmas about `writeReg` this gives its result and its frame. -/
theorem operate_eq_writeReg (op : Op) (rd : Reg) (src : Source) (s : State) :
    operate op rd src s = writeReg rd (alu op (readReg rd s) (sourceValue src s)) s := rfl

@[simp] theorem operate_cursor (op : Op) (rd : Reg) (src : Source) (s : State) :
    (operate op rd src s).cursor = s.cursor := rfl
@[simp] theorem operate_captured (op : Op) (rd : Reg) (src : Source) (s : State) :
    (operate op rd src s).captured = s.captured := rfl
@[simp] theorem operate_prog (op : Op) (rd : Reg) (src : Source) (s : State) :
    (operate op rd src s).prog = s.prog := rfl
@[simp] theorem operate_raised (op : Op) (rd : Reg) (src : Source) (s : State) :
    (operate op rd src s).raised = s.raised := rfl
@[simp] theorem operate_pending (op : Op) (rd : Reg) (src : Source) (s : State) :
    (operate op rd src s).pending = s.pending := rfl
@[simp] theorem operate_response (op : Op) (rd : Reg) (src : Source) (s : State) :
    (operate op rd src s).response = s.response := rfl

@[simp] theorem readReg_operate_same (op : Op) (rd : Reg) (src : Source) (s : State) :
    readReg rd (operate op rd src s) = alu op (readReg rd s) (sourceValue src s) :=
  readReg_writeReg_same rd _ s

@[simp] theorem readReg_operate_other (op : Op) {rd q : Reg} (src : Source) (s : State) (h : q ≠ rd) :
    readReg q (operate op rd src s) = readReg q s :=
  readReg_writeReg_other _ s h

/-- A write of the value a register already holds changes nothing. -/
theorem writeReg_readReg_same (r : Reg) (s : State) : writeReg r (readReg r s) s = s := by
  simp [writeReg, readReg]

/-- Every MOV, ADD or SUB runs the datapath. -/
@[simp] theorem exec_ofParts (op : Op) (rd : Reg) (src : Source) (s : State) :
    exec (Instr.ofParts op rd src) s = .next (operate op rd src s) := by
  cases op <;> cases src <;> rfl

@[simp] theorem exec_movRR (rd rs : Reg) (s : State) : exec (.movRR rd rs) s = .next (operate .mov rd (.reg rs) s) := rfl
@[simp] theorem exec_movRI (rd : Reg) (v : Word) (s : State) :
    exec (.movRI rd v) s = .next (operate .mov rd (.imm v) s) := rfl
@[simp] theorem exec_addRR (rd rs : Reg) (s : State) : exec (.addRR rd rs) s = .next (operate .add rd (.reg rs) s) := rfl
@[simp] theorem exec_addRI (rd : Reg) (v : Word) (s : State) :
    exec (.addRI rd v) s = .next (operate .add rd (.imm v) s) := rfl
@[simp] theorem exec_subRR (rd rs : Reg) (s : State) : exec (.subRR rd rs) s = .next (operate .sub rd (.reg rs) s) := rfl
@[simp] theorem exec_subRI (rd : Reg) (v : Word) (s : State) :
    exec (.subRI rd v) s = .next (operate .sub rd (.imm v) s) := rfl
@[simp] theorem exec_illegal (c : BitVec 3) (s : State) : exec (.illegal c) s = .next (raiseFault (causeOf c) s) := rfl

end Sys2Proof.Machine
end

