-- ==== Sys2Proof/Laws/PerInstr.lean ====
section
/-!
SUPPORT. A law of every instruction, one lemma per constructor: its encoding has the bits its row of
spec/opcode_table.json fixes.
-/

namespace Sys2Proof.Laws.EncodingHasRowBits

/-- The encoding of an instruction has the fixed bits of the instruction's row. -/
abbrev Statement (i : Instr) : Prop := i.row.has (encode i) = true

theorem movRR (rd rs : Reg) : Statement (.movRR rd rs) := by cases rd <;> cases rs <;> decide

theorem movRI (rd : Reg) (v : Word) : Statement (.movRI rd v) := by
  simp only [Statement, TableRow.has, Instr.row, encode, encodeParts, packFields_imm_and_mask]
  decide

theorem addRR (rd rs : Reg) : Statement (.addRR rd rs) := by cases rd <;> cases rs <;> decide

theorem addRI (rd : Reg) (v : Word) : Statement (.addRI rd v) := by
  simp only [Statement, TableRow.has, Instr.row, encode, encodeParts, packFields_imm_and_mask]
  decide

theorem subRR (rd rs : Reg) : Statement (.subRR rd rs) := by cases rd <;> cases rs <;> decide

theorem subRI (rd : Reg) (v : Word) : Statement (.subRI rd v) := by
  simp only [Statement, TableRow.has, Instr.row, encode, encodeParts, packFields_imm_and_mask]
  decide

theorem illegal (c : BitVec 3) : Statement (.illegal c) := by
  unfold Statement
  revert c
  decide

end Sys2Proof.Laws.EncodingHasRowBits
end

