-- ==== Sys2Proof/Laws/Session.lean ====
section
/-!
SUPPORT. What executing a word can do, what a command does after it, and the cases of a step.
-/

namespace Sys2Proof.Machine

@[simp] theorem afterInstr_completed {t : State} (f : Cause → State → Host.Outcome State Fault Refusal)
    (g : State → Host.Outcome State Fault Refusal) (h : t.raised = none) : afterInstr (.next t) f g = g t := by
  simp [afterInstr, h]

@[simp] theorem afterInstr_faulted {t : State} {c : Cause} (f : Cause → State → Host.Outcome State Fault Refusal)
    (g : State → Host.Outcome State Fault Refusal) (h : t.raised = some c) : afterInstr (.next t) f g = f c t := by
  simp [afterInstr, h]

/-- A word whose opcode field is an operation's runs the datapath on the state with no fault raised. -/
theorem execute_of_op {w : InstrWord} {op : Op} (h : opField w = op.code) (s : State) :
    execute w s = .next (operate op (Reg.ofIndex (rdField w)) (sourceOf w) { s with raised := none }) := by
  rw [execute, decode_of_op h, exec_ofParts]

/-- An ILLEGAL word raises its cause. -/
theorem execute_of_illegal {w : InstrWord} (h : opField w = 0b11#2) (s : State) :
    execute w s = .next { s with raised := some (causeOf (causeField w)) } := by
  rw [execute, decode_of_illegal h, exec_illegal]
  rfl

/-- A valid word's opcode field is an operation's. -/
theorem isValidWord_iff (w : InstrWord) : isValidWord w = true ↔ ∃ op : Op, opField w = op.code := by
  rcases Op.ofCode_cases (opField w) with ⟨op, -, h⟩ | ⟨-, h⟩
  · refine ⟨fun _ => ⟨op, h⟩, fun _ => ?_⟩
    cases op <;> simp [isValidWord, h, Op.code]
  · refine ⟨fun hv => ?_, fun ⟨op, ho⟩ => ?_⟩
    · simp [isValidWord, h] at hv
    · rw [h] at ho
      cases op <;> simp [Op.code] at ho

/-- An invalid word is an ILLEGAL word. -/
theorem opField_of_invalid {w : InstrWord} (h : isValidWord w = false) : opField w = 0b11#2 := by
  simpa [isValidWord] using h

/-- Executing a word always answers a next state, and its session fields are the old ones. -/
theorem execute_next (w : InstrWord) (s : State) : ∃ t, execute w s = .next t ∧ SameSession s t ∧
    t.pending = s.pending ∧ t.response = s.response := by
  rcases Op.ofCode_cases (opField w) with ⟨op, -, h⟩ | ⟨-, h⟩
  · exact ⟨_, execute_of_op h s, ⟨rfl, rfl, rfl⟩, rfl, rfl⟩
  · exact ⟨_, execute_of_illegal h s, ⟨rfl, rfl, rfl⟩, rfl, rfl⟩

/-- The datapath's effect on the bank is the reference effect of the word. -/
theorem operate_regs_of_op {w : InstrWord} {op : Op} (h : opField w = op.code) (s : State) :
    (operate op (Reg.ofIndex (rdField w)) (sourceOf w) s).regs = wordEffect s.regs w := by
  have hr : ∀ a b, resultOf op a b = alu op a b := by cases op <;> simp [resultOf]
  simp only [wordEffect, h, Op.ofCode_code, operate, writeReg_regs, hr, sourceOf]
  split <;> rfl

/-- What EXEC answers, by the word it carries. -/
theorem serveExec_valid {w : InstrWord} (h : isValidWord w = true) (s : State) :
    serveExec w s = .next (respond .ok { s with regs := wordEffect s.regs w }) := by
  obtain ⟨op, ho⟩ := (isValidWord_iff w).1 h
  rw [serveExec, execute_of_op ho, afterInstr_completed _ _ rfl, ← operate_regs_of_op ho]
  rfl

theorem serveExec_illegal {w : InstrWord} (h : isValidWord w = false) (s : State) :
    serveExec w s = .next (respond (.fault (causeOf (causeField w))) s) := by
  rw [serveExec, execute_of_illegal (opField_of_invalid h), afterInstr_faulted _ _ rfl]
  rfl

/-- A step with a command pending serves that command, with the later ones left pending. -/
theorem stepWith_pending (cap : Nat) {s : State} {c : Command} {rest : List Command} (h : s.pending = c :: rest) :
    stepWith cap s = serve cap c { s with pending := rest } := by
  simp [stepWith, h]

/-- What the loop of RUN does at its first entry. -/
theorem runFrom_cons_valid (k : Nat) {w : InstrWord} {op : Op} (h : opField w = op.code) (ws : List InstrWord)
    (s : State) :
    runFrom k (w :: ws) s =
      runFrom (k + 1) ws (operate op (Reg.ofIndex (rdField w)) (sourceOf w) { s with raised := none }) := by
  rw [runFrom, execute_of_op h, afterInstr_completed _ _ rfl]

theorem runFrom_cons_illegal (k : Nat) {w : InstrWord} (h : opField w = 0b11#2) (ws : List InstrWord) (s : State) :
    runFrom k (w :: ws) s = .next (respond (.runFault k (causeOf (causeField w))) s) := by
  rw [runFrom, execute_of_illegal h, afterInstr_faulted _ _ rfl]
  rfl

/-- One entry of RUN's loop moves its valid word's effect into the bank. -/
theorem runFrom_cons_effect (k : Nat) {w : InstrWord} (h : isValidWord w = true) (ws : List InstrWord) (s : State) :
    runFrom k (w :: ws) s = runFrom (k + 1) ws { s with raised := none, regs := wordEffect s.regs w } := by
  obtain ⟨op, ho⟩ := (isValidWord_iff w).1 h
  rw [runFrom_cons_valid k ho, ← operate_regs_of_op ho]
  rfl

/-- RUN's loop over valid words ends with all of their effects. -/
theorem runFrom_of_valid (ws : List InstrWord) (h : ∀ w ∈ ws, isValidWord w = true) (k : Nat) (s : State) :
    runFrom k ws s = .next (respond .runOk { s with regs := regsAfter ws s.regs }) := by
  induction ws generalizing k s with
  | nil => rfl
  | cons w ws ih =>
    rw [runFrom_cons_effect k (h w (by simp)), ih (fun v hv => h v (by simp [hv]))]
    rfl

/-- RUN's loop stops at its first ILLEGAL word, with the effects of the words before it. -/
theorem runFrom_of_illegal (pre : List InstrWord) (h : ∀ v ∈ pre, isValidWord v = true) {w : InstrWord}
    (hw : isValidWord w = false) (post : List InstrWord) (k : Nat) (s : State) :
    runFrom k (pre ++ w :: post) s =
      .next (respond (.runFault (k + pre.length) (causeOf (causeField w))) { s with regs := regsAfter pre s.regs }) := by
  induction pre generalizing k s with
  | nil => exact runFrom_cons_illegal k (opField_of_invalid hw) post s
  | cons v pre ih =>
    rw [List.cons_append, runFrom_cons_effect k (h v (by simp)), ih (fun u hu => h u (by simp [hu])),
      List.length_cons, Nat.add_assoc, Nat.add_comm 1]
    rfl

/-- Words are all valid, or there is a first ILLEGAL one. -/
theorem valid_or_firstIllegal (ws : List InstrWord) :
    (∀ w ∈ ws, isValidWord w = true) ∨
      ∃ pre w post, ws = pre ++ w :: post ∧ (∀ v ∈ pre, isValidWord v = true) ∧ isValidWord w = false := by
  induction ws with
  | nil => exact .inl (by simp)
  | cons w ws ih =>
    cases hw : isValidWord w with
    | false => exact .inr ⟨[], w, ws, rfl, by simp, hw⟩
    | true =>
      rcases ih with h | ⟨pre, v, post, rfl, hp, hv⟩
      · exact .inl (by simpa [hw] using h)
      · exact .inr ⟨w :: pre, v, post, rfl, by simpa [hw] using hp, hv⟩

/-- Everything RUN can do with a program that fits. -/
theorem serveRun_cases {cap : Nat} {ws : List InstrWord} (hfits : ws.length ≤ cap) (s : State) :
    ((∀ w ∈ ws, isValidWord w = true) ∧
      serveRun cap ws s = .next (respond .runOk { s with regs := regsAfter ws s.regs })) ∨
    ∃ pre w post, ws = pre ++ w :: post ∧ (∀ v ∈ pre, isValidWord v = true) ∧ isValidWord w = false ∧
      serveRun cap ws s =
        .next (respond (.runFault pre.length (causeOf (causeField w))) { s with regs := regsAfter pre s.regs }) := by
  have hrun : serveRun cap ws s = runFrom 0 ws s := by simp [serveRun, programFits, hfits]
  rw [hrun]
  rcases valid_or_firstIllegal ws with h | ⟨pre, w, post, rfl, hp, hw⟩
  · exact .inl ⟨h, runFrom_of_valid ws h 0 s⟩
  · refine .inr ⟨pre, w, post, rfl, hp, hw, ?_⟩
    rw [runFrom_of_illegal pre hp hw, Nat.zero_add]

/-- STEP, where it does not stop, is its capture if nothing is captured and then the entry at the cursor. -/
theorem serveStep_eq_stepEntry {cap : Nat} {ws : List InstrWord} {s : State}
    (h : s.captured = true ∨ ws.length ≤ cap) :
    serveStep cap ws s = stepEntry { s with
      captured := true
      prog := if s.captured then s.prog else ws
      cursor := if s.captured then s.cursor else 0 } := by
  obtain ⟨regs, cursor, captured, prog, raised, pending, response⟩ := s
  cases captured with
  | true => rfl
  | false => simp [serveStep, programFits, capture, h.resolve_left Bool.false_ne_true]

/-- What STEP does at the entry at the cursor. -/
theorem stepEntry_past {s : State} (h : s.prog.length ≤ s.cursor) : stepEntry s = .next (respond .complete s) := by
  simp [stepEntry, List.getElem?_eq_none h]

theorem stepEntry_valid {s : State} {w : InstrWord} {op : Op} (hw : s.prog[s.cursor]? = some w)
    (h : opField w = op.code) :
    stepEntry s =
      .next (respond .executed
        { operate op (Reg.ofIndex (rdField w)) (sourceOf w) { s with raised := none } with cursor := s.cursor + 1 }) := by
  simp only [stepEntry, hw]
  rw [execute_of_op h, afterInstr_completed _ _ rfl]
  rfl

theorem stepEntry_illegal {s : State} {w : InstrWord} (hw : s.prog[s.cursor]? = some w) (h : opField w = 0b11#2) :
    stepEntry s = .next (respond (.stepFault (causeOf (causeField w))) s) := by
  simp only [stepEntry, hw]
  rw [execute_of_illegal h, afterInstr_faulted _ _ rfl]
  rfl

/-- Everything STEP can do after the capture. -/
theorem stepEntry_cases (s : State) :
    (s.prog.length ≤ s.cursor ∧ stepEntry s = .next (respond .complete s)) ∨
    (∃ w, s.prog[s.cursor]? = some w ∧ isValidWord w = true ∧
      stepEntry s = .next (respond .executed { s with regs := wordEffect s.regs w, cursor := s.cursor + 1 })) ∨
    ∃ w, s.prog[s.cursor]? = some w ∧ isValidWord w = false ∧
      stepEntry s = .next (respond (.stepFault (causeOf (causeField w))) s) := by
  rcases Nat.lt_or_ge s.cursor s.prog.length with hlt | hge
  · have hget : s.prog[s.cursor]? = some s.prog[s.cursor] := by simp [hlt]
    cases hv : isValidWord s.prog[s.cursor] with
    | true =>
      obtain ⟨op, ho⟩ := (isValidWord_iff _).1 hv
      refine .inr (.inl ⟨_, hget, hv, ?_⟩)
      rw [stepEntry_valid hget ho, ← operate_regs_of_op ho]
      rfl
    | false => exact .inr (.inr ⟨_, hget, hv, stepEntry_illegal hget (opField_of_invalid hv)⟩)
  · exact .inl ⟨hge, stepEntry_past hge⟩

end Sys2Proof.Machine
end

