-- ==== Sys2Proof/Machine/Flags.lean ====
section
/-!
DEFINITION. Flags: none.
The block has no flags, no condition codes and no predicates (10_state.md R22); a carry or a borrow is discarded and
recorded nowhere (40_alu.md R58, R59, R61). There is no flag computation to define.
-/
end

