-- ==== Sys2Proof/Tests/Slice0.lean ====
section
/-!
SUPPORT. Small tests, with results from the spec's rules and from spec/95_test_vectors.md, and a witness for the
hypotheses of every statement of Certificates/Slice0/Obligations.lean that has any.
-/

namespace Sys2Proof.Tests

open Sys2Proof.Machine

/-! ### Helpers -/

/-- The bank `1111 2222 3333 4444` of vector E1. -/
def bank : RegBank := ⟨0x1111#16, 0x2222#16, 0x3333#16, 0x4444#16⟩

/-- That bank, nothing captured, and commands pending. -/
def withCommands (cs : List Command) : State := { State.reset with regs := bank, pending := cs }

/-- That bank, a captured program, a cursor, and commands pending. -/
def inSession (prog : List InstrWord) (cursor : Nat) (cs : List Command) : State :=
  { withCommands cs with captured := true, prog := prog, cursor := cursor }

/-- A state with only `AX` and `BX` set. -/
def withAB (a b : Word) : State := { State.reset with regs := ⟨a, b, 0#16, 0#16⟩ }

/-- What a test looks at: registers, cursor and response. -/
def seen : Host.Outcome State Fault Refusal → Option (RegBank × Nat × Option Response)
  | .next t => some (t.regs, t.cursor, t.response)
  | .fault _ => none
  | .refused _ => none

/-- The registers and the raised fault. -/
def seenExec : Host.Outcome State Fault Refusal → Option (RegBank × Option Cause)
  | .next t => some (t.regs, t.raised)
  | .fault _ => none
  | .refused _ => none

/-! ### Well-formedness smoke tests -/

theorem test_number_too_wide_refused : isWordValue 0x1000000 = false := by decide
theorem test_number_widest_accepted : isWordValue 0xFFFFFF = true := by decide
theorem test_program_too_long_refused : programFits 2 [0#24, 0#24, 0#24] = false := by decide
theorem test_program_fitting_accepted : programFits 3 [0#24, 0#24, 0#24] = true := by decide

/-! ### Decoding: words written out from R36's fields, op rd s rs z imm16 -/

theorem test_decode_movRR : decode (0b00#2 ++ 0b01#2 ++ 0b0#1 ++ 0b11#2 ++ 0b0#1 ++ 0x0000#16) = .movRR .bx .dx := by decide
theorem test_decode_movRI : decode (0b00#2 ++ 0b10#2 ++ 0b1#1 ++ 0b00#2 ++ 0b0#1 ++ 0xABCD#16) = .movRI .cx 0xABCD#16 := by decide
theorem test_decode_addRR : decode (0b01#2 ++ 0b11#2 ++ 0b0#1 ++ 0b10#2 ++ 0b0#1 ++ 0x0000#16) = .addRR .dx .cx := by decide
theorem test_decode_addRI : decode (0b01#2 ++ 0b01#2 ++ 0b1#1 ++ 0b00#2 ++ 0b0#1 ++ 0x8000#16) = .addRI .bx 0x8000#16 := by decide
theorem test_decode_subRR : decode (0b10#2 ++ 0b10#2 ++ 0b0#1 ++ 0b11#2 ++ 0b0#1 ++ 0x0000#16) = .subRR .cx .dx := by decide
theorem test_decode_subRI : decode (0b10#2 ++ 0b00#2 ++ 0b1#1 ++ 0b00#2 ++ 0b0#1 ++ 0x0001#16) = .subRI .ax 0x0001#16 := by decide
theorem test_decode_illegal : decode (0b11#2 ++ 0b00#2 ++ 0b0#1 ++ 0b00#2 ++ 0b0#1 ++ 0x0005#16) = .illegal 5#3 := by decide

/-- Vectors 2.8 and 2.7: ignored fields set. -/
theorem test_decode_ignored_fields :
    decode 0x0E0001#24 = .movRI .ax 0x0001#16 ∧ decode 0x090001#24 = .movRI .ax 0x0001#16 ∧
      decode 0x031234#24 = .movRR .ax .bx ∧ decode 0xDFFFF8#24 = .illegal 0#3 := by decide

/-- Vectors A10, A13, A15 and the ILLEGAL word of cause 4. -/
theorem test_encode_words :
    encode (.movRR .bx .ax) = 0x100000#24 ∧ encode (.addRI .bx 0x8000#16) = 0x588000#24 ∧
      encode (.subRR .cx .dx) = 0xA60000#24 ∧ encode (.illegal 4#3) = 0xC00004#24 := by decide

/-- The rows of the opcode table do not overlap: two rows differ where both fix a bit. -/
theorem test_rows_disjoint : opcodeTable.Pairwise (fun a b => a.bits &&& (a.mask &&& b.mask) ≠ b.bits &&& (a.mask &&& b.mask)) := by
  decide

theorem test_decodeTableWord : decodeTableWord 24 0x420000 = some (.addRR .ax .bx) ∧ decodeTableWord 24 0xFFFFFF = some (.illegal 7#3) := by
  decide

/-! ### Instructions -/

/-- E1. -/
theorem test_movRI : seenExec (exec (.movRI .bx 0xFFFF#16) (withCommands [])) = some (⟨0x1111#16, 0xFFFF#16, 0x3333#16, 0x4444#16⟩, none) := by
  decide
/-- P3, its second line. -/
theorem test_movRR : seenExec (exec (.movRR .ax .bx) (withCommands [])) = some (⟨0x2222#16, 0x2222#16, 0x3333#16, 0x4444#16⟩, none) := by
  decide
/-- 2.4. -/
theorem test_addRR_wraps : seenExec (exec (.addRR .ax .bx) (withAB 0xFFFF#16 0xFFFF#16)) = some (⟨0xFFFE#16, 0xFFFF#16, 0#16, 0#16⟩, none) := by
  decide
/-- 2.5. -/
theorem test_addRR_same_register : seenExec (exec (.addRR .ax .ax) (withAB 0x8000#16 0x5555#16)) = some (⟨0x0000#16, 0x5555#16, 0#16, 0#16⟩, none) := by
  decide
/-- 2.6. -/
theorem test_addRI_wraps : seenExec (exec (.addRI .ax 0x0001#16) (withAB 0xFFFF#16 0x5555#16)) = some (⟨0x0000#16, 0x5555#16, 0#16, 0#16⟩, none) := by
  decide
/-- 2.4. -/
theorem test_subRR_borrows : seenExec (exec (.subRR .ax .bx) (withAB 0x0000#16 0xFFFF#16)) = some (⟨0x0001#16, 0xFFFF#16, 0#16, 0#16⟩, none) := by
  decide
/-- 2.6. -/
theorem test_subRI_borrows : seenExec (exec (.subRI .ax 0x0002#16) (withAB 0x0001#16 0x5555#16)) = some (⟨0xFFFF#16, 0x5555#16, 0#16, 0#16⟩, none) := by
  decide
/-- 2.7. -/
theorem test_illegal_raises : seenExec (exec (.illegal 3#3) (withCommands [])) = some (bank, some .unknownRegister) := by decide
/-- 2.7. -/
theorem test_illegal_unused_cause : seenExec (exec (.illegal 7#3) (withCommands [])) = some (bank, some .unknownInstruction) := by
  decide

/-! ### Commands, one step each -/

/-- E6. -/
theorem test_run_stops_at_fault :
    seen (stepWith 8 { State.reset with pending := [.run [0x0800FF#24, 0x180100#24, 0x420000#24, 0xC00005#24, 0x280001#24]] }) =
      some (⟨0x01FF#16, 0x0100#16, 0#16, 0#16⟩, 0, some (.runFault 3 .invalidDestination)) := by decide
/-- P1. -/
theorem test_run_to_end :
    seen (stepWith 8 { State.reset with
      pending := [.run [0x08FFFF#24, 0x480001#24, 0x100000#24, 0x980001#24, 0x620000#24, 0x620000#24]] }) =
      some (⟨0#16, 0xFFFF#16, 0xFFFE#16, 0#16⟩, 0, some .runOk) := by decide
/-- E5, its third STEP. -/
theorem test_step_executes :
    seen (stepWith 8 (inSession [0x080001#24, 0x480002#24, 0x880004#24] 2 [.step []])) =
      some (⟨0x110D#16, 0x2222#16, 0x3333#16, 0x4444#16⟩, 3, some .executed) := by decide
/-- S3. -/
theorem test_step_empty_program :
    seen (stepWith 8 { State.reset with pending := [.step []] }) = some (State.reset.regs, 0, some .complete) := by decide
/-- S1, its second STEP. -/
theorem test_step_faults :
    seen (stepWith 8 (inSession [0x080010#24, 0xC00003#24, 0x480001#24] 1 [.step []])) =
      some (bank, 1, some (.stepFault .unknownRegister)) := by decide
/-- S4, its EXEC. -/
theorem test_exec_leaves_cursor :
    seen (stepWith 8 (inSession [0x080005#24] 1 [.exec 0x880001#24])) =
      some (⟨0x1110#16, 0x2222#16, 0x3333#16, 0x4444#16⟩, 1, some .ok) := by decide
/-- R71. -/
theorem test_snapshot :
    seen (stepWith 8 (withCommands [.snapshot])) =
      some (bank, 0, some (.registers 0x1111#16 0x2222#16 0x3333#16 0x4444#16)) := by decide
/-- E4. -/
theorem test_reset : seen (stepWith 8 (inSession [0#24, 0#24, 0#24] 2 [.reset])) = some (State.reset.regs, 0, some .ok) := by
  decide
/-- The model's stop (log 1). -/
theorem test_program_too_long : stepWith 1 (withCommands [.run [0#24, 0#24]]) = .fault .programTooLong := rfl

/-- The word placed runs next after power-on, whatever PROG_CAP is. -/
theorem test_withFetchWord :
    seen (step (State.reset.withFetchWord 24 0x18FFFF)) = some (⟨0#16, 0xFFFF#16, 0#16, 0#16⟩, 1, some .executed) := by decide

/-! ### Assembler, vectors of 2.1 to 2.3 -/

/-- A4, A7, A37, A40. -/
theorem test_assemble_good_lines :
    assembleLine "Mov BX #ffff".toList = 0x18FFFF#24 ∧ assembleLine "MOV CX #10000".toList = 0x280000#24 ∧
      assembleLine "MOV AX #1 ; note".toList = 0x080001#24 ∧ assembleLine "\tSUB\tCX\t#0002\r".toList = 0xA80002#24 := by decide
/-- A17, A18, A25, A27, A33, A41, A42. -/
theorem test_assemble_bad_lines :
    assembleLine "MOV AX, BX".toList = 0xC00003#24 ∧ assembleLine "MOV AX,BX".toList = 0xC00001#24 ∧
      assembleLine "MOV #zz AX".toList = 0xC00005#24 ∧ assembleLine "mov ax #1".toList = 0xC00003#24 ∧
      assembleLine "MOV AX ##1".toList = 0xC00004#24 ∧
      assembleLine ['M', 'O', 'V', ' ', 'A', 'X', Char.ofNat 0xA0, '#', '1'] = 0xC00001#24 ∧
      assembleLine (Char.ofNat 0x17F :: "ub AX #1".toList) = 0xC00002#24 := by decide
/-- 2.3: a blank line inside, CR LF line ends, and only whitespace. -/
theorem test_assemble_program :
    assembleProgram "MOV AX #1\n\nMOV BX #2".toList = [0x080001#24, 0xC00001#24, 0x180002#24] ∧
      assembleProgram "MOV AX #1\r\nMOV BX #2\r\n".toList = [0x080001#24, 0x180002#24] ∧
      assembleProgram " \n\t ".toList = [] := by decide
/-- R54, R71 and E9. -/
theorem test_spellings :
    spell 0x18FFFF#24 = "MOV BX #FFFF".toList ∧ spell 0xA60000#24 = "SUB CX DX".toList ∧
      spell 0xC00004#24 = ".illegal InvalidImmediate".toList ∧ displayReg .ax 255#16 = "AX: 00FF".toList := by decide

/-! ### Witnesses for the statements' hypotheses -/

theorem witness_reset_pending : (withCommands [.reset, .snapshot]).pending = .reset :: [.snapshot] := rfl

theorem witness_MovCopiesSource :
    opField 0x020000#24 = 0b00#2 ∧ tokens "mov BX #1F".toList = "mov".toList :: regName .bx :: ('#' :: "1F".toList) :: [] ∧
      asciiUpper "mov".toList = mnemonic .mov ∧ isHexDigitString "1F".toList = true := by decide
theorem witness_AddIsModulo :
    opField 0x420000#24 = 0b01#2 ∧ tokens "ADD AX ZZ".toList = "ADD".toList :: ["AX".toList, "ZZ".toList] ∧
      asciiUpper "ADD".toList = mnemonic .add ∧ readReg .dx { withAB 0#16 0#16 with regs := ⟨0#16, 0#16, 0#16, 0xFFFF#16⟩ } = 0xFFFF#16 ∧
      readReg .ax (withAB 0x1234#16 0x0001#16) = 0x1234#16 ∧ readReg .bx (withAB 0x1234#16 0x0001#16) = 0x0001#16 := by decide
theorem witness_SubIsModulo :
    opField 0x880001#24 = 0b10#2 ∧ tokens "SUB AX #1".toList = "SUB".toList :: ["AX".toList, "#1".toList] ∧
      asciiUpper "SUB".toList = mnemonic .sub ∧ readReg .ax State.reset = 0x0000#16 := by decide
theorem witness_IllegalRaisesItsCause :
    opField 0xFFFFFF#24 = 0b11#2 ∧ tokens "FOO AX #1".toList = "FOO".toList :: "AX".toList :: "#1".toList :: [] ∧
      ∀ op, asciiUpper "FOO".toList ≠ mnemonic op := by
  refine ⟨by decide, by decide, fun op => ?_⟩
  cases op <;> decide
theorem witness_ExecuteIsAllOrNothing :
    opField 0xC00000#24 = 0b11#2 ∧ opField 0x080001#24 ≠ 0b11#2 ∧ opField 0x080001#24 = 0b00#2 ∧
      opField 0x480001#24 = 0b01#2 ∧ opField 0x880001#24 = 0b10#2 := by decide
theorem witness_SignedReadingAndNoControlAccess : (withAB 1#16 2#16).regs = ({ withAB 1#16 2#16 with cursor := 5 } : State).regs := rfl
theorem witness_CommandsRespondAsTabled :
    Command.inSpec 2 (.exec 0#24) = true ∧ Command.inSpec 2 (.run [0#24, 0#24]) = true ∧
      Command.inSpec 2 (.step [0#24, 0#24]) = true ∧ Command.inSpec 0 .reset = true ∧ Command.inSpec 0 .snapshot = true ∧
      (withCommands [.run [0#24, 0#24], .reset]).pending = .run [0#24, 0#24] :: [.reset] := by decide
theorem witness_ExecCommandRunsOneWord :
    (withCommands [.exec 0x080001#24]).pending = .exec 0x080001#24 :: [] ∧ isValidWord 0x080001#24 = true ∧
      isValidWord 0xC00003#24 = false := by decide
theorem witness_RunCommandStopsAtFirstFault :
    (withCommands [.run [0x080001#24, 0xC00003#24]]).pending = .run [0x080001#24, 0xC00003#24] :: [] ∧
      [0x080001#24, 0xC00003#24].length ≤ 2 ∧ [0x080001#24, 0xC00003#24][1]? = some 0xC00003#24 ∧
      isValidWord 0xC00003#24 = false ∧ ([0x080001#24, 0xC00003#24].take 1).all isValidWord = true ∧
      [0x080001#24].all isValidWord = true := by decide
theorem witness_StepCommandExecutesAtMostOneEntry :
    (withCommands [.step [0x080001#24]]).pending = .step [0x080001#24] :: [] ∧ [0x080001#24].length ≤ 1 ∧
      (inSession [0x080001#24] 1 [.step []]).prog.length ≤ 1 ∧ [0x080001#24][0]? = some 0x080001#24 ∧
      isValidWord 0x080001#24 = true ∧ [0xC00003#24][0]? = some 0xC00003#24 ∧ isValidWord 0xC00003#24 = false := by decide
theorem witness_snapshot_pending : (withCommands [.snapshot]).pending = .snapshot :: [] := rfl
theorem witness_StepFaultRepeatsUntilReset :
    (inSession [0xC00003#24] 0 [.step [], .step [0#24], .reset]).captured = true ∧
      (inSession [0xC00003#24] 0 [.step [], .step [0#24], .reset]).prog[0]? = some 0xC00003#24 ∧
      isValidWord 0xC00003#24 = false ∧ [[], [0#24]] ≠ ([] : List (List InstrWord)) ∧
      (inSession [0xC00003#24] 0 [.step [], .step [0#24], .reset]).pending =
        ([[], [0#24]] : List (List InstrWord)).map .step ++ .reset :: [] := by decide
theorem witness_SteppingRunsTheProgram :
    (withCommands [.step [0x080001#24], .step [], .step []]).captured = false ∧ [0x080001#24].length ≤ 1 ∧
      [0x080001#24].all isValidWord = true ∧
      (withCommands [.step [0x080001#24], .step [], .step []]).pending =
        .step [0x080001#24] :: (([[], []] : List (List InstrWord)).map .step ++ []) := by decide
theorem witness_RunIsExecSequence :
    [0x080001#24, 0x480002#24].length ≤ 2 ∧ [0x080001#24, 0x480002#24].all isValidWord = true ∧
      ([0x080001#24] ++ 0xC00003#24 :: [0x480002#24]).length ≤ 3 ∧ [0x080001#24].all isValidWord = true ∧
      isValidWord 0xC00003#24 = false := by decide
theorem witness_FaultsArePrecise :
    isValidWord 0xC00003#24 = false ∧ (withCommands [.exec 0xC00003#24]).pending = .exec 0xC00003#24 :: [] ∧
      (inSession [0x080001#24, 0xC00003#24] 1 [.step []]).pending = .step [] :: [] ∧ ([] : List InstrWord).length ≤ 0 ∧
      (inSession [0x080001#24, 0xC00003#24] 1 [.step []]).captured = true ∧
      (inSession [0x080001#24, 0xC00003#24] 1 [.step []]).prog[1]? = some 0xC00003#24 ∧
      (withCommands [.run ([0x080001#24] ++ 0xC00003#24 :: [0#24])]).pending = .run ([0x080001#24] ++ 0xC00003#24 :: [0#24]) :: [] ∧
      ([0x080001#24] ++ 0xC00003#24 :: [0#24]).length ≤ 3 ∧ [0x080001#24].all isValidWord = true := by decide
theorem witness_ResponsesAreNeverRead : (withCommands [.snapshot]).pending ≠ [] := by decide
theorem witness_StepsStopOnlyOnOverlongPrograms :
    (withCommands [.run [0#24]]).safe 1 = true ∧ (withCommands [.run [0#24]]).safe 0 = false ∧
      (withCommands [.step [0#24]]).safe 0 = false ∧ (inSession [0#24] 0 [.step [0#24, 0#24]]).safe 1 = true ∧
      State.reset.safe 0 = true := by decide
/-- A step that changes a register, for each kind of command that can. -/
theorem witness_RegistersWrittenOnlyAsStated :
    seen (stepWith 1 (withCommands [.exec 0x080001#24])) = some ({ bank with ax := 1#16 }, 0, some .ok) ∧
      seen (stepWith 1 (withCommands [.run [0x080001#24]])) = some ({ bank with ax := 1#16 }, 0, some .runOk) ∧
      seen (stepWith 3 (withCommands [.run [0x080001#24, 0xC00003#24, 0x180002#24]])) =
        some ({ bank with ax := 1#16 }, 0, some (.runFault 1 .unknownRegister)) ∧
      seen (stepWith 1 (withCommands [.step [0x080001#24]])) = some ({ bank with ax := 1#16 }, 1, some .executed) ∧
      seen (stepWith 1 (withCommands [.reset])) = some (⟨0#16, 0#16, 0#16, 0#16⟩, 0, some .ok) ∧ bank.ax ≠ 1#16 ∧
      (withCommands [.reset]).pending = .reset :: [] ∧ (withCommands [.snapshot]).pending = .snapshot :: [] := by decide
/-- A step with each command pending answers a next state. -/
theorem witness_CursorChangesOnlyAsStated :
    [Command.exec 0#24, .run [0#24], .step [0#24], .reset, .snapshot].all
      (fun c => (seen (stepWith 1 (withCommands [c]))).isSome) = true := by decide
theorem witness_CapturedProgramIsFrozen :
    (seen (stepWith 1 (inSession [0#24] 0 [.step [0x080001#24]]))).isSome = true ∧
      (inSession [0#24] 0 [.step [0x080001#24]]).captured = true ∧
      (inSession [0#24] 0 [.step [0x080001#24]]).pending.head? ≠ some .reset ∧ [0x080001#24].length ≤ 1 ∧
      [0x080001#24].all isValidWord = true ∧ [0x080001#24, 0xC00003#24].length ≤ 2 ∧
      [0x080001#24, 0xC00003#24][1]? = some 0xC00003#24 ∧ isValidWord 0xC00003#24 = false ∧
      ([0x080001#24, 0xC00003#24].take 1).all isValidWord = true ∧
      (withCommands [.step [0#24]]).pending = .step [0#24] :: [] ∧ (withCommands [.step [0#24]]).captured = false := by decide
/-- A session in its middle meets the invariant and its step answers a next state. -/
theorem witness_StepKeepsSessionInvariant :
    (inSession [0x080001#24, 0x480002#24] 1 [.step []]).Inv 2 ∧
      (seen (stepWith 2 (inSession [0x080001#24, 0x480002#24] 1 [.step []]))).isSome = true :=
  ⟨⟨by decide, by decide, by decide, rfl⟩, by decide⟩
/-- At power-on with a RESET pending, whatever PROG_CAP is. -/
theorem witness_StepKeepsSessionInvariant_progCap :
    (withCommands [.reset]).Inv Config.progCap ∧ (seen (step (withCommands [.reset]))).isSome = true :=
  ⟨⟨Nat.le_refl 0, fun _ => ⟨rfl, rfl⟩, Nat.zero_le _, rfl⟩, by decide⟩
theorem witness_IdleBlockKeepsItsState : (withCommands []).pending = [] := rfl
theorem witness_StepRunsDecodedWord :
    (inSession [0x080001#24, 0xC00003#24] 1 [.step []]).pending = .step [] :: [] ∧
      (inSession [0x080001#24, 0xC00003#24] 1 [.step []]).captured = true ∧
      (inSession [0x080001#24, 0xC00003#24] 1 [.step []]).prog[1]? = some 0xC00003#24 ∧
      decode 0xC00003#24 = .illegal 3#3 ∧ (Instr.illegal 3#3).wellFormed = true ∧
      (withCommands [.step [0x080001#24]]).pending = .step [0x080001#24] :: [] ∧
      (withCommands [.step [0x080001#24]]).captured = false ∧ [0x080001#24].length ≤ 1 ∧
      [0x080001#24][0]? = some 0x080001#24 ∧
      (withCommands [.run [0x080001#24, 0xC00003#24]]).pending = .run [0x080001#24, 0xC00003#24] :: [] ∧
      [0x080001#24, 0xC00003#24].length ≤ 2 ∧ [0x080001#24, 0xC00003#24][1]? = some 0xC00003#24 ∧
      [0x080001#24, 0xC00003#24][0]? = some 0x080001#24 ∧
      ([0x080001#24, 0xC00003#24].take 1).all isValidWord = true ∧
      (withCommands [.exec 0x080001#24]).pending = .exec 0x080001#24 :: [] ∧ decode 0x080001#24 = .movRI .ax 1#16 ∧
      (Instr.movRI .ax 1#16).wellFormed = true := by decide
theorem witness_PlacedWordRunsNext : decodeTableWord 24 0x880001 = some (.subRI .ax 1#16) := by decide
/-- The model's choice of log 12: the word placed at a cursor past a full store of one word runs. -/
theorem test_placed_past_a_full_store :
    (placeFetch 0x080001#24 (inSession [0#24] 1 [])).prog.length = 2 ∧
      seen (stepWith 1 (placeFetch 0x080001#24 (inSession [0#24] 1 []))) =
        some ({ bank with ax := 1#16 }, 2, some .executed) := by decide
theorem witness_WordLayoutIsFixed : opField 0xDFFFF8#24 = 0b11#2 := by decide
theorem witness_DecodeOfEncode :
    (Instr.movRR .dx .ax).wellFormed = true ∧ (Instr.movRI .dx 0xFFFF#16).wellFormed = true ∧
      (Instr.addRR .dx .ax).wellFormed = true ∧ (Instr.addRI .dx 0xFFFF#16).wellFormed = true ∧
      (Instr.subRR .dx .ax).wellFormed = true ∧ (Instr.subRI .dx 0xFFFF#16).wellFormed = true ∧
      (Instr.illegal 7#3).wellFormed = true := by decide
theorem witness_IgnoredFieldsDoNotMatter :
    opField 0x0E0001#24 = opField 0x080001#24 ∧ opField 0x0E0001#24 ≠ 0b11#2 ∧
      rdField 0x0E0001#24 = rdField 0x080001#24 ∧ sField 0x0E0001#24 = sField 0x080001#24 ∧
      sField 0x0E0001#24 = 1#1 ∧ immField 0x0E0001#24 = immField 0x080001#24 ∧
      opField 0x031234#24 = opField 0x020000#24 ∧ rdField 0x031234#24 = rdField 0x020000#24 ∧
      sField 0x031234#24 = 0#1 ∧ sField 0x020000#24 = 0#1 ∧ rsField 0x031234#24 = rsField 0x020000#24 ∧
      opField 0xDFFFF8#24 = 0b11#2 ∧ opField 0xC00000#24 = 0b11#2 ∧ causeField 0xDFFFF8#24 = causeField 0xC00000#24 := by decide
theorem witness_IllegalWordsNameCauses :
    opField 0xC00007#24 = 0b11#2 ∧ opField (assembleLine "MOV".toList) = 0b11#2 := by decide
theorem witness_OnlyOpcodeThreeIsIllegal : opField 0xBFFFFF#24 ≠ 0b11#2 ∧ opField 0xC00000#24 = 0b11#2 := by decide
theorem witness_DecoderFollowsOpcodeTable :
    ⟨0xC80000#24, 0x480000#24⟩ ∈ opcodeTable ∧ ⟨0xC00000#24, 0xC00000#24⟩ ∈ opcodeTable := by decide
theorem witness_TableNumbersDecodeOrAreRejected : 2 ^ 24 - 1 < 2 ^ 24 ∧ 2 ^ 24 ≤ 2 ^ 24 := by decide
theorem witness_LinesOfProgramText :
    (trim " A\nB ".toList).head? = some 'A' ∧ (trim " A\nB ".toList).getLast? = some 'B' ∧ trim " \n ".toList = [] ∧
      trim " A\nB ".toList ≠ [] ∧ "  ".toList.all isSpace = true := by decide
theorem witness_TokensAreMaximalRuns :
    "AX".toList ≠ [] ∧ "AX".toList.all (fun c => !isSpace c) = true ∧ "MOV ".toList.getLast? = some ' ' ∧
      " #1".toList.head? = some ' ' ∧ isSpace ' ' = true ∧ tokens "MOV AX".toList = ["MOV".toList, "AX".toList] ∧
      " \t".toList.all isSpace = true ∧ Char.ofNat 0xA0 ∈ [Char.ofNat 0xA0] ∧ 128 ≤ (Char.ofNat 0xA0).toNat := by decide
theorem witness_LineArity :
    (tokens "MOV AX".toList).length < 3 ∧ 3 ≤ (tokens "MOV AX #1".toList).length ∧
      (tokens "MOV AX #1".toList).take 3 = (tokens "MOV AX #1 x".toList).take 3 := by decide
theorem witness_MnemonicSelectsOpcode :
    (0x61 ≤ 'a'.toNat ∧ 'z'.toNat ≤ 0x7A) ∧ ¬(0x61 ≤ 'A'.toNat ∧ 'A'.toNat ≤ 0x7A) ∧
      tokens "add AX BX".toList = "add".toList :: "AX".toList :: "BX".toList :: [] ∧
      asciiUpper "add".toList = mnemonic .add := by decide
/-- Lines with a good mnemonic whose destination is an immediate, no register, and a register. -/
theorem witness_DestinationToken :
    tokens "MOV #5 AX".toList = "MOV".toList :: ('#' :: "5".toList) :: "AX".toList :: [] ∧
      tokens "MOV ZZ AX".toList = "MOV".toList :: "ZZ".toList :: "AX".toList :: [] ∧
      tokens "MOV DX AX".toList = "MOV".toList :: regName .dx :: "AX".toList :: [] ∧
      opField (assembleLine "MOV DX AX".toList) ≠ 0b11#2 ∧ asciiUpper "MOV".toList = mnemonic .mov := by decide
/-- A token that is neither an immediate nor a register name. -/
theorem witness_neither_hash_nor_register : NoHash "ZZ".toList ∧ NoRegister "ZZ".toList := by
  refine ⟨fun h => ?_, fun r => ?_⟩
  · simp
  · cases r <;> decide
theorem witness_SourceToken :
    tokens "SUB AX #10000".toList = "SUB".toList :: regName .ax :: ('#' :: "10000".toList) :: [] ∧
      isHexDigitString "10000".toList = true ∧
      tokens "SUB AX #G".toList = "SUB".toList :: regName .ax :: ('#' :: "G".toList) :: [] ∧
      isHexDigitString "G".toList = false ∧
      tokens "SUB AX DX".toList = "SUB".toList :: regName .ax :: regName .dx :: [] ∧
      tokens "SUB AX ZZ".toList = "SUB".toList :: regName .ax :: "ZZ".toList :: [] ∧
      asciiUpper "SUB".toList = mnemonic .sub := by decide
theorem witness_HexDigitStrings :
    hexDigit 'f' = some 15 ∧ hexDigit '9' = some 9 ∧ hexDigit 'A' = some 10 ∧ isHexDigitString "00aF".toList = true := by decide
/-- For the clauses on an unknown mnemonic, see also witness_IllegalRaisesItsCause; the others are those above. -/
theorem witness_FirstDefectIsReported :
    (tokens "FOO AX".toList).length < 3 ∧ tokens "MOV #1 ZZ".toList = "MOV".toList :: ('#' :: "1".toList) :: "ZZ".toList :: [] ∧
      tokens "MOV ZZ #G".toList = "MOV".toList :: "ZZ".toList :: ('#' :: "G".toList) :: [] ∧
      tokens "MOV AX #G".toList = "MOV".toList :: regName .ax :: ('#' :: "G".toList) :: [] ∧
      tokens "MOV AX BX".toList = "MOV".toList :: regName .ax :: regName .bx :: [] ∧ isHexDigitString "G".toList = false := by
  decide
theorem witness_AssembleOfSpell : canonicalWord 0x18FFFF#24 = 0x18FFFF#24 ∧ opField 0x18FFFF#24 ≠ 0b11#2 := by decide

end Sys2Proof.Tests
end

section
/-!
SUPPORT. The registers and the cursor (10_state.md R13, R17, R19, R24): what each host command does to them, said once
per command from the command's answer, and the statements about them assembled from that.
-/

namespace Sys2Proof

/-- The register of an index is the one with that index (R13, R38). -/
theorem Reg.ofIndex_eq_iff (i : BitVec 2) (r : Reg) : Reg.ofIndex i = r ↔ i = r.index :=
  ⟨fun h => h ▸ (Reg.index_ofIndex i).symm, fun h => h ▸ Reg.ofIndex_index r⟩

/-- Every instruction is an operation on a destination and a source, or ILLEGAL (R37). -/
theorem Instr.eq_ofParts_or_illegal (i : Instr) :
    (∃ op rd src, i = .ofParts op rd src) ∨ ∃ c, i = .illegal c := by
  cases i with
  | movRR rd rs => exact .inl ⟨.mov, rd, .reg rs, rfl⟩
  | movRI rd v => exact .inl ⟨.mov, rd, .imm v, rfl⟩
  | addRR rd rs => exact .inl ⟨.add, rd, .reg rs, rfl⟩
  | addRI rd v => exact .inl ⟨.add, rd, .imm v, rfl⟩
  | subRR rd rs => exact .inl ⟨.sub, rd, .reg rs, rfl⟩
  | subRI rd v => exact .inl ⟨.sub, rd, .imm v, rfl⟩
  | illegal c => exact .inr ⟨c, rfl⟩

end Sys2Proof

namespace Sys2Proof.Machine

/-- An outcome answers at most one next state. -/
theorem next_unique {o : Host.Outcome State Fault Refusal} {t u : State} (ht : o = .next t) (hu : o = .next u) : t = u :=
  Host.Outcome.next.inj (ht.symm.trans hu)

/-- No instruction writes the session: the datapath writes one register, and a fault is only raised (R56, R62). -/
theorem exec_next (i : Instr) (s : State) : ∃ t, exec i s = .next t ∧ SameSession s t := by
  rcases i.eq_ofParts_or_illegal with ⟨op, rd, src, rfl⟩ | ⟨c, rfl⟩
  · exact ⟨_, exec_ofParts op rd src s, rfl, rfl, rfl⟩
  · exact ⟨_, exec_illegal c s, rfl, rfl, rfl⟩

/-! ### What words do to the bank -/

/-- R56: a word writes its destination register alone, so a register it changes is the one it names. -/
theorem writesReg_of_wordEffect_get_ne {w : InstrWord} {b : RegBank} {r : Reg}
    (h : (wordEffect b w).get r ≠ b.get r) : WritesReg w r := by
  rcases Op.ofCode_cases (opField w) with ⟨op, hop, hw⟩ | ⟨hop, -⟩
  · refine ⟨(isValidWord_iff w).2 ⟨op, hw⟩, ?_⟩
    by_contra hne
    simp only [wordEffect, hop] at h
    exact h (RegBank.get_set_other b _ (Ne.symm hne))
  · simp [wordEffect, hop] at h

/-- A register that words executed one after another change is named by one of them. -/
theorem exists_writesReg_of_regsAfter_get_ne {ws : List InstrWord} {b : RegBank} {r : Reg}
    (h : (regsAfter ws b).get r ≠ b.get r) : ∃ w ∈ ws, WritesReg w r := by
  induction ws generalizing b with
  | nil => exact absurd rfl h
  | cons w ws ih =>
    by_cases hw : (wordEffect b w).get r = b.get r
    · have htail : (regsAfter ws (wordEffect b w)).get r ≠ (wordEffect b w).get r := hw ▸ h
      obtain ⟨v, hv, hvr⟩ := ih htail
      exact ⟨v, List.mem_cons_of_mem w hv, hvr⟩
    · exact ⟨w, List.mem_cons_self, writesReg_of_wordEffect_get_ne hw⟩

/-- An ILLEGAL word has no effect on the bank (R60). -/
theorem wordEffect_illegal {w : InstrWord} (h : isValidWord w = false) (b : RegBank) : wordEffect b w = b := by
  simp [wordEffect, opField_of_invalid h]

/-! ### What each command does to the registers and the cursor -/

/-- EXEC (R67): the session stays, and the registers change by the effect of its word. -/
theorem serveExec_next {w : InstrWord} {s t : State} (h : serveExec w s = .next t) :
    SameSession s t ∧ t.regs = wordEffect s.regs w := by
  cases hv : isValidWord w with
  | true =>
    obtain rfl := next_unique (serveExec_valid hv s) h
    exact ⟨⟨rfl, rfl, rfl⟩, rfl⟩
  | false =>
    obtain rfl := next_unique (serveExec_illegal hv s) h
    exact ⟨⟨rfl, rfl, rfl⟩, (wordEffect_illegal hv s.regs).symm⟩

/-- A RUN that does not stop the machine carries a program that fits the store. -/
theorem length_le_of_serveRun_next {cap : Nat} {ws : List InstrWord} {s t : State} (h : serveRun cap ws s = .next t) :
    ws.length ≤ cap := by
  by_contra hlong
  simp [serveRun, programFits, hlong] at h

/-- RUN (R68): the session stays, and the registers change by the effect of valid words at the front of its program. -/
theorem serveRun_next {cap : Nat} {ws : List InstrWord} {s t : State} (h : serveRun cap ws s = .next t) :
    SameSession s t ∧
      ∃ pre post, ws = pre ++ post ∧ (∀ v ∈ pre, isValidWord v = true) ∧ t.regs = regsAfter pre s.regs := by
  rcases serveRun_cases (length_le_of_serveRun_next h) s with ⟨hv, hrun⟩ | ⟨pre, w, post, rfl, hv, -, hrun⟩
  · obtain rfl := next_unique hrun h
    exact ⟨⟨rfl, rfl, rfl⟩, ws, [], (List.append_nil ws).symm, hv, rfl⟩
  · obtain rfl := next_unique hrun h
    exact ⟨⟨rfl, rfl, rfl⟩, pre, w :: post, rfl, hv, rfl⟩

/-- A RUN that changes a register executes a word that names it; every entry before that word is valid. -/
theorem exists_writesReg_of_serveRun_next {cap : Nat} {ws : List InstrWord} {s t : State} {r : Reg}
    (h : serveRun cap ws s = .next t) (hr : t.regs.get r ≠ s.regs.get r) :
    ∃ (k : Nat) (w : InstrWord), ws[k]? = some w ∧ (∀ v ∈ ws.take k, isValidWord v = true) ∧ WritesReg w r := by
  obtain ⟨-, pre, post, rfl, hvalid, hregs⟩ := serveRun_next h
  rw [hregs] at hr
  obtain ⟨w, hw, hwr⟩ := exists_writesReg_of_regsAfter_get_ne hr
  obtain ⟨k, hk, rfl⟩ := List.getElem_of_mem hw
  refine ⟨k, pre[k], ?_, fun v hv => hvalid v ?_, hwr⟩
  · rw [List.getElem?_append_left hk, List.getElem?_eq_getElem hk]
  · rw [List.take_append_of_le_length hk.le] at hv
    exact List.mem_of_mem_take hv

/-- A STEP that does not stop the machine has a program captured or carries one that fits the store. -/
theorem captured_or_length_le_of_serveStep_next {cap : Nat} {ws : List InstrWord} {s t : State}
    (h : serveStep cap ws s = .next t) : s.captured = true ∨ ws.length ≤ cap := by
  by_contra hstop
  obtain ⟨hcap, hlong⟩ := not_or.1 hstop
  simp [serveStep, programFits, hcap, hlong] at h

/-- STEP (R69): it executes the valid word at the cursor, which is 0 in the program it captures if it captures one, and
advances; or it reports Complete or a fault and changes neither the registers nor the cursor. -/
theorem serveStep_next {cap : Nat} {ws : List InstrWord} {s t : State} (h : serveStep cap ws s = .next t) :
    (∃ w, (if s.captured then s.prog else ws)[if s.captured then s.cursor else 0]? = some w ∧
      t.regs = wordEffect s.regs w ∧ t.response = some .executed ∧ t.cursor = (if s.captured then s.cursor else 0) + 1) ∨
    (t.regs = s.regs ∧ (t.response = some .complete ∨ ∃ f, t.response = some (.stepFault f)) ∧
      t.cursor = if s.captured then s.cursor else 0) := by
  rw [serveStep_eq_stepEntry (captured_or_length_le_of_serveStep_next h)] at h
  rcases stepEntry_cases { s with
      captured := true
      prog := if s.captured then s.prog else ws
      cursor := if s.captured then s.cursor else 0 } with ⟨-, he⟩ | ⟨w, hw, -, he⟩ | ⟨w, -, -, he⟩
  · obtain rfl := next_unique he h
    exact .inr ⟨rfl, .inl rfl, rfl⟩
  · obtain rfl := next_unique he h
    exact .inl ⟨w, hw, rfl, rfl, rfl⟩
  · obtain rfl := next_unique he h
    exact .inr ⟨rfl, .inr ⟨_, rfl⟩, rfl⟩

/-- An idle block keeps its state (R86). -/
theorem stepWith_idle (cap : Nat) {s : State} (h : s.pending = []) : stepWith cap s = .next s := by
  simp [stepWith, h]

/-- RESET (R70) is served from every state, with the power-on values of R24. -/
theorem serves_reset (cap : Nat) {s : State} {rest : List Command} (h : s.pending = .reset :: rest) :
    Serves cap s rest .ok (respond .ok { State.reset with pending := rest }) :=
  ⟨stepWith_pending cap h, rfl, rfl, rfl⟩

/-- SNAPSHOT (R71) is served from every state, and writes only its response. -/
theorem serves_snapshot (cap : Nat) {s : State} {rest : List Command} (h : s.pending = .snapshot :: rest) :
    Serves cap s rest (.registers s.regs.ax s.regs.bx s.regs.cx s.regs.dx)
      (respond (.registers s.regs.ax s.regs.bx s.regs.cx s.regs.dx) { s with pending := rest }) :=
  ⟨stepWith_pending cap h, rfl, rfl, rfl⟩

/-! ### The statements -/

/-- Settles O1: one RESET is served with the power-on state, whose values are those of R24's table. -/
theorem powerOnAndResetGiveSpecValues : Obligations.PowerOnAndResetGiveSpecValues :=
  ⟨⟨rfl, rfl, rfl, rfl⟩, fun cap _ _ h => ⟨_, serves_reset cap h, rfl, rfl, rfl, rfl⟩⟩

/-- Settles O24: the constructors of `Reg` and their indices, and reads after writes on the register bank. -/
theorem fourRegistersWithIndices : Obligations.FourRegistersWithIndices := by
  refine ⟨⟨rfl, rfl, rfl, rfl⟩, ⟨rfl, rfl, rfl, rfl⟩, fun r => ?_, Reg.ofIndex_eq_iff,
    fun s => ⟨rfl, rfl, rfl, rfl⟩, fun r q v s => ?_⟩
  · cases r <;> simp
  · split
    · next h => rw [h, readReg_writeReg_same]
    · next h => exact readReg_writeReg_other v s h

/-- Settles O26: a command that changes a register is one whose executed words name it, or RESET. -/
theorem registersWrittenOnlyAsStated : Obligations.RegistersWrittenOnlyAsStated := by
  refine ⟨fun cap s t r hstep hr => ?_, fun cap s rest r h => ?_, fun cap s rest h => ?_⟩
  · cases hp : s.pending with
    | nil =>
      obtain rfl := next_unique (stepWith_idle cap hp) hstep
      exact absurd rfl hr
    | cons c rest =>
      rw [stepWith_pending cap hp] at hstep
      refine ⟨c, rest, rfl, ?_⟩
      cases c with
      | reset => exact .inl rfl
      | exec w =>
        obtain ⟨-, hregs⟩ := serveExec_next hstep
        rw [readReg, hregs] at hr
        exact .inr (.inl ⟨w, rfl, writesReg_of_wordEffect_get_ne hr⟩)
      | run ws =>
        obtain ⟨k, w, hw⟩ := exists_writesReg_of_serveRun_next hstep hr
        exact .inr (.inr (.inl ⟨ws, k, w, rfl, hw⟩))
      | step ws =>
        rcases serveStep_next hstep with ⟨w, hw, hregs, -⟩ | ⟨hregs, -⟩
        · rw [readReg, hregs] at hr
          exact .inr (.inr (.inr ⟨ws, w, rfl, hw, writesReg_of_wordEffect_get_ne hr⟩))
        · exact absurd (congrArg (RegBank.get · r) hregs) hr
      | snapshot =>
        obtain rfl := Host.Outcome.next.inj hstep
        exact absurd rfl hr
  · exact ⟨_, serves_reset cap h, by cases r <;> rfl⟩
  · exact ⟨_, _, serves_snapshot cap h, rfl⟩

/-- Settles O27: no instruction writes the cursor, and of the commands only STEP and RESET do. -/
theorem cursorChangesOnlyAsStated : Obligations.CursorChangesOnlyAsStated := by
  refine ⟨rfl, fun i s => ?_, fun cap s t c rest hp hstep => ?_⟩
  · obtain ⟨t, hexec, hcursor, -⟩ := exec_next i s
    exact ⟨t, hexec, hcursor⟩
  · rw [stepWith_pending cap hp] at hstep
    cases c with
    | exec w =>
      obtain ⟨⟨hcursor, -⟩, -⟩ := serveExec_next hstep
      exact hcursor
    | run ws =>
      obtain ⟨⟨hcursor, -⟩, -⟩ := serveRun_next hstep
      exact hcursor
    | step ws =>
      rcases serveStep_next hstep with ⟨-, -, -, hresponse, hcursor⟩ | ⟨-, hresponse, hcursor⟩
      · exact .inl ⟨hresponse, hcursor⟩
      · exact .inr ⟨hresponse, hcursor⟩
    | reset =>
      obtain rfl := Host.Outcome.next.inj hstep
      rfl
    | snapshot =>
      obtain rfl := Host.Outcome.next.inj hstep
      rfl

end Sys2Proof.Machine
end

section
/-!
SUPPORT. The instruction store (20_memory.md R26, R34): what RUN and STEP do to the captured program and what of the
session they read, said once per command, and the statement about the store assembled from that.
-/

namespace Sys2Proof.Machine

/-! ### RUN and the session -/

/-- RUN (R68) of a program of valid words completes with the effects of all of them. -/
theorem serveRun_of_valid {cap : Nat} {ws : List InstrWord} (hfits : ws.length ≤ cap)
    (hv : ∀ w ∈ ws, isValidWord w = true) (s : State) :
    serveRun cap ws s = .next (respond .runOk { s with regs := regsAfter ws s.regs }) := by
  simp [serveRun, programFits, hfits, runFrom_of_valid ws hv]

/-- RUN (R68) of a program whose first ILLEGAL entry is `k` stops there, with the effects of the entries before it. -/
theorem serveRun_of_firstIllegal {cap : Nat} {ws : List InstrWord} (hfits : ws.length ≤ cap) {k : Nat} {w : InstrWord}
    (hk : ws[k]? = some w) (hw : isValidWord w = false) (hv : ∀ v ∈ ws.take k, isValidWord v = true) (s : State) :
    serveRun cap ws s =
      .next (respond (.runFault k (causeOf (causeField w))) { s with regs := regsAfter (ws.take k) s.regs }) := by
  obtain ⟨hlt, hget⟩ := List.getElem?_eq_some_iff.1 hk
  have hsplit : ws.take k ++ w :: ws.drop (k + 1) = ws := by
    rw [← hget, ← List.drop_eq_getElem_cons hlt, List.take_append_drop]
  have hrun := runFrom_of_illegal (ws.take k) hv hw (ws.drop (k + 1)) 0 s
  rw [hsplit, List.length_take_of_le hlt.le, Nat.zero_add] at hrun
  simp [serveRun, programFits, hfits, hrun]

/-- RUN neither reads nor writes the session: its response and the bank it leaves are the same whatever program is
captured and wherever the cursor stands. -/
theorem serveRun_session_free {cap : Nat} {ws : List InstrWord} (hfits : ws.length ≤ cap) (s : State) :
    ∃ r regs, ∀ p b n, serveRun cap ws { s with prog := p, captured := b, cursor := n } =
      .next (respond r { s with regs := regs, prog := p, captured := b, cursor := n }) := by
  rcases valid_or_firstIllegal ws with hv | ⟨pre, w, post, rfl, hv, hw⟩
  · exact ⟨_, regsAfter ws s.regs, fun p b n => serveRun_of_valid hfits hv _⟩
  · exact ⟨_, regsAfter ((pre ++ w :: post).take pre.length) s.regs, fun p b n =>
      serveRun_of_firstIllegal hfits (by simp) hw (by simpa using hv) _⟩

/-! ### STEP and the captured program -/

/-- STEP after the capture always answers a next state, and writes neither the captured program nor the flag. -/
theorem stepEntry_next (s : State) :
    ∃ t, stepEntry s = .next t ∧ t.prog = s.prog ∧ t.captured = s.captured := by
  rcases stepEntry_cases s with ⟨-, he⟩ | ⟨w, -, -, he⟩ | ⟨w, -, -, he⟩ <;> exact ⟨_, he, rfl, rfl⟩

/-- With a program captured, STEP (R69) reads nothing of the program it carries. -/
theorem serveStep_of_captured (cap : Nat) (ws : List InstrWord) (s : State) (h : s.captured = true) :
    serveStep cap ws s = stepEntry s := by
  simp [serveStep, h]

/-- With nothing captured, STEP (R69) captures the program it carries. -/
theorem serveStep_of_not_captured {cap : Nat} {ws : List InstrWord} (hfits : ws.length ≤ cap) (s : State)
    (h : s.captured = false) : serveStep cap ws s = stepEntry (capture ws s) := by
  simp [serveStep, programFits, h, hfits]

/-- No command but RESET writes a captured program or clears the flag (R34). -/
theorem serve_keeps_captured_program {cap : Nat} {c : Command} {s t : State} (h : serve cap c s = .next t)
    (hcap : s.captured = true) (hc : c ≠ .reset) : t.prog = s.prog ∧ t.captured = true := by
  cases c with
  | exec w =>
    obtain ⟨⟨-, hcaptured, hprog⟩, -⟩ := serveExec_next h
    exact ⟨hprog, hcaptured.trans hcap⟩
  | run ws =>
    obtain ⟨⟨-, hcaptured, hprog⟩, -⟩ := serveRun_next h
    exact ⟨hprog, hcaptured.trans hcap⟩
  | step ws =>
    obtain ⟨u, hu, hprog, hcaptured⟩ := stepEntry_next s
    obtain rfl := next_unique ((serveStep_of_captured cap ws s hcap).trans hu) h
    exact ⟨hprog, hcaptured.trans hcap⟩
  | reset => exact absurd rfl hc
  | snapshot =>
    obtain rfl := Host.Outcome.next.inj h
    exact ⟨rfl, hcap⟩

/-! ### The statement -/

/-- Settles O28: instructions and all commands but RESET keep a captured program, RUN runs its own program whatever the
session holds, and STEP captures the program it carries only if none is captured. -/
theorem capturedProgramIsFrozen : Obligations.CapturedProgramIsFrozen := by
  refine ⟨fun i s => ?_, fun cap s t hstep hcap hreset => ?_, fun cap s ws vs rest hcap _ _ => ?_,
    fun cap s ws rest p b n hfits => ?_, fun cap s ws rest hp hcap hfits => ?_⟩
  · obtain ⟨t, hexec, -, hcaptured, hprog⟩ := exec_next i s
    exact ⟨t, hexec, hprog, hcaptured⟩
  · cases hp : s.pending with
    | nil =>
      obtain rfl := next_unique (stepWith_idle cap hp) hstep
      exact ⟨rfl, hcap⟩
    | cons c rest =>
      rw [stepWith_pending cap hp] at hstep
      exact serve_keeps_captured_program (s := { s with pending := rest }) hstep hcap fun hc => hreset rest (hc ▸ hp)
  · have hstep (us : List InstrWord) :
        stepWith cap { s with pending := .step us :: rest } = stepEntry { s with pending := rest } :=
      serveStep_of_captured cap us { s with pending := rest } hcap
    rw [hstep ws, hstep vs]
  · obtain ⟨r, regs, hrun⟩ := serveRun_session_free hfits { s with pending := rest }
    have hown := hrun s.prog s.captured s.cursor
    refine ⟨respond r { s with pending := rest, regs := regs }, hown, ⟨rfl, rfl, rfl⟩, fun hv => ?_,
      fun k w hk hw hv => ?_, hrun p b n⟩
    · exact congrArg State.regs (next_unique hown (serveRun_of_valid hfits hv _))
    · exact congrArg State.regs (next_unique hown (serveRun_of_firstIllegal hfits hk hw hv _))
  · obtain ⟨t, ht, hprog, hcaptured⟩ := stepEntry_next (capture ws { s with pending := rest })
    refine ⟨t, ?_, hprog, hcaptured⟩
    calc stepWith cap s = serveStep cap ws { s with pending := rest } := stepWith_pending cap hp
      _ = stepEntry (capture ws { s with pending := rest }) := serveStep_of_not_captured hfits _ hcap
      _ = .next t := ht

end Sys2Proof.Machine
end

section
/-!
SUPPORT. The word as a number (30_encoding.md R36, R40, R41): its value in terms of its fields, from which the layout
and the canonical words follow.
-/

namespace Sys2Proof

/-! ### A word and its fields -/

theorem opField_toNat (w : InstrWord) : (opField w).toNat = w.toNat / 2 ^ 22 := by
  have hw := w.isLt
  simp only [opField, BitVec.extractLsb'_toNat, Nat.shiftRight_eq_div_pow]
  omega

theorem causeField_toNat (w : InstrWord) : (causeField w).toNat = w.toNat % 8 := by
  simp [causeField]

/-- R36: the value of a word is that of its fields at their places. -/
theorem toNat_eq_fields (w : InstrWord) :
    w.toNat = (opField w).toNat * 2 ^ 22 + (rdField w).toNat * 2 ^ 20 + (sField w).toNat * 2 ^ 19 +
      (rsField w).toNat * 2 ^ 17 + (zField w).toNat * 2 ^ 16 + (immField w).toNat := by
  have hw := w.isLt
  simp only [opField, rdField, sField, rsField, zField, immField, BitVec.extractLsb'_toNat,
    Nat.shiftRight_eq_div_pow]
  omega

theorem packFields_toNat (op rd : BitVec 2) (s : BitVec 1) (rs : BitVec 2) (z : BitVec 1) (imm16 : Word) :
    (packFields op rd s rs z imm16).toNat = op.toNat * 2 ^ 22 + rd.toNat * 2 ^ 20 + s.toNat * 2 ^ 19 +
      rs.toNat * 2 ^ 17 + z.toNat * 2 ^ 16 + imm16.toNat := by
  simpa using toNat_eq_fields (packFields op rd s rs z imm16)

@[simp] theorem packFields_fields (w : InstrWord) :
    packFields (opField w) (rdField w) (sField w) (rsField w) (zField w) (immField w) = w :=
  BitVec.eq_of_toNat_eq ((packFields_toNat ..).trans (toNat_eq_fields w).symm)

/-- R36: the six fields are all of a word. -/
theorem packFields_eq_iff (op rd : BitVec 2) (s : BitVec 1) (rs : BitVec 2) (z : BitVec 1) (imm16 : Word)
    (w : InstrWord) :
    packFields op rd s rs z imm16 = w ↔
      op = opField w ∧ rd = rdField w ∧ s = sField w ∧ rs = rsField w ∧ z = zField w ∧ imm16 = immField w := by
  refine ⟨fun h => ?_, fun ⟨hop, hrd, hs, hrs, hz, himm⟩ => ?_⟩
  · simp [← h]
  · rw [hop, hrd, hs, hrs, hz, himm, packFields_fields]

/-- R41: an ILLEGAL word of the assembler is `0xC00000` and a cause field. -/
theorem encodeIllegal_toNat (c : BitVec 3) : (encodeIllegal c).toNat = 3 * 2 ^ 22 + c.toNat := by
  have hc := c.isLt
  rw [encodeIllegal, packFields_toNat, BitVec.toNat_setWidth, Nat.mod_eq_of_lt (by omega)]
  rfl

theorem encodeIllegal_eq_or (c : BitVec 3) : encodeIllegal c = 0xC00000#24 ||| c.setWidth 24 := by
  revert c
  decide

@[simp] theorem causeField_encodeIllegal (c : BitVec 3) : causeField (encodeIllegal c) = c := by
  revert c
  decide

/-- R43: the ILLEGAL words are the upper quarter of all words. -/
theorem opField_eq_illegal_iff (w : InstrWord) : opField w = 0b11#2 ↔ 3 * 2 ^ 22 ≤ w.toNat := by
  have hw := w.isLt
  rw [← BitVec.toNat_inj, opField_toNat]
  simp
  omega

/-- The select bit names one of the two forms (R39). -/
theorem sField_cases (w : InstrWord) : sField w = 1#1 ∨ sField w = 0#1 := by
  generalize sField w = s
  revert s
  decide

/-! ### Canonical words (R40) -/

/-- A mask acts field by field. -/
theorem and_packFields (w : InstrWord) (op rd : BitVec 2) (s : BitVec 1) (rs : BitVec 2) (z : BitVec 1)
    (imm16 : Word) :
    w &&& packFields op rd s rs z imm16 = packFields (opField w &&& op) (rdField w &&& rd) (sField w &&& s)
      (rsField w &&& rs) (zField w &&& z) (immField w &&& imm16) := by
  have hfields (v : InstrWord) :
      opField (w &&& v) = opField w &&& opField v ∧ rdField (w &&& v) = rdField w &&& rdField v ∧
      sField (w &&& v) = sField w &&& sField v ∧ rsField (w &&& v) = rsField w &&& rsField v ∧
      zField (w &&& v) = zField w &&& zField v ∧ immField (w &&& v) = immField w &&& immField v :=
    ⟨BitVec.extractLsb'_and, BitVec.extractLsb'_and, BitVec.extractLsb'_and, BitVec.extractLsb'_and,
      BitVec.extractLsb'_and, BitVec.extractLsb'_and⟩
  rw [eq_comm, packFields_eq_iff]
  simp [hfields]

theorem immField_and_seven (w : InstrWord) : immField w &&& 7#16 = (causeField w).setWidth 16 := by
  have hand : (immField w).toNat &&& 7 = (immField w).toNat % 8 := Nat.and_two_pow_sub_one_eq_mod _ 3
  have himm : (immField w).toNat = w.toNat % 2 ^ 16 := by simp [immField]
  apply BitVec.eq_of_toNat_eq
  rw [BitVec.toNat_and, BitVec.toNat_ofNat, BitVec.toNat_setWidth, causeField_toNat,
    Nat.mod_eq_of_lt (by decide : 7 < 2 ^ 16), hand, himm]
  omega

theorem canonicalWord_of_illegal {w : InstrWord} (h : opField w = 0b11#2) :
    canonicalWord w = encodeIllegal (causeField w) := by
  have hmask : 0xC00007#24 = packFields (BitVec.allOnes 2) 0#2 0#1 0#2 0#1 7#16 := by decide
  rw [canonicalWord, if_pos h, hmask, and_packFields, encodeIllegal, immField_and_seven]
  simp [h]

theorem canonicalWord_of_imm {w : InstrWord} (h : opField w ≠ 0b11#2) (hs : sField w = 1#1) :
    canonicalWord w = packFields (opField w) (rdField w) 1#1 0#2 0#1 (immField w) := by
  have hmask : 0xF8FFFF#24 = packFields (BitVec.allOnes 2) (BitVec.allOnes 2) (BitVec.allOnes 1) 0#2 0#1
    (BitVec.allOnes 16) := by decide
  rw [canonicalWord, if_neg h, if_pos hs, hmask, and_packFields]
  simp only [hs, BitVec.and_allOnes, BitVec.and_zero]

theorem canonicalWord_of_reg {w : InstrWord} (h : opField w ≠ 0b11#2) (hs : sField w = 0#1) :
    canonicalWord w = packFields (opField w) (rdField w) 0#1 (rsField w) 0#1 0#16 := by
  have hmask : 0xFE0000#24 = packFields (BitVec.allOnes 2) (BitVec.allOnes 2) (BitVec.allOnes 1)
    (BitVec.allOnes 2) 0#1 0#16 := by decide
  rw [canonicalWord, if_neg h, if_neg (by simp [hs]), hmask, and_packFields]
  simp only [hs, BitVec.and_allOnes, BitVec.and_zero]

@[simp] theorem Op.code_ne_illegal (op : Op) : op.code ≠ 0b11#2 := by cases op <;> decide

theorem canonicalWord_encodeIllegal (c : BitVec 3) : canonicalWord (encodeIllegal c) = encodeIllegal c := by
  rw [canonicalWord_of_illegal (opField_encodeIllegal c), causeField_encodeIllegal]

/-- An ILLEGAL word is canonical when its bits 21:3 are zero. -/
theorem canonicalWord_eq_self_iff_of_illegal {w : InstrWord} (h : opField w = 0b11#2) :
    canonicalWord w = w ↔ w.toNat % 2 ^ 22 < 8 := by
  have hw := w.isLt
  have hop := (opField_eq_illegal_iff w).1 h
  rw [canonicalWord_of_illegal h, ← BitVec.toNat_inj, encodeIllegal_toNat, causeField_toNat]
  omega

/-- Any other word is canonical when bit 16 and the field its form does not use are zero. -/
theorem canonicalWord_eq_self_iff_of_op {w : InstrWord} (h : opField w ≠ 0b11#2) :
    canonicalWord w = w ↔
      zField w = 0#1 ∧ (sField w = 1#1 → rsField w = 0#2) ∧ (sField w = 0#1 → immField w = 0#16) := by
  rcases sField_cases w with hs | hs
  · rw [canonicalWord_of_imm h hs, packFields_eq_iff]
    simp [hs, eq_comm, and_comm]
  · rw [canonicalWord_of_reg h hs, packFields_eq_iff]
    simp [hs, eq_comm, and_comm]

theorem canonicalWord_encodeParts (op : Op) (rd : Reg) (src : Source) :
    canonicalWord (encodeParts op rd src) = encodeParts op rd src := by
  rw [canonicalWord_eq_self_iff_of_op (by simp)]
  cases src <;> simp [encodeParts]

/-! ### What the decoder reads -/

/-- The source operand depends on the select bit and on the field it selects (R39). -/
theorem sourceOf_congr {w v : InstrWord} (hs : sField w = sField v) (himm : sField w = 1#1 → immField w = immField v)
    (hrs : sField w = 0#1 → rsField w = rsField v) : sourceOf w = sourceOf v := by
  rcases sField_cases w with h | h
  · simp [sourceOf, ← hs, h, himm h]
  · simp [sourceOf, ← hs, h, hrs h]

/-- The decoder reads the opcode, and of the other fields those R40 does not list as ignored. -/
theorem decode_congr {w v : InstrWord} (hop : opField w = opField v)
    (hcause : opField w = 0b11#2 → causeField w = causeField v)
    (hparts : opField w ≠ 0b11#2 → rdField w = rdField v ∧ sourceOf w = sourceOf v) : decode w = decode v := by
  rcases Op.ofCode_cases (opField w) with ⟨op, -, h⟩ | ⟨-, h⟩
  · obtain ⟨hrd, hsrc⟩ := hparts (h ▸ op.code_ne_illegal)
    rw [decode_of_op h, decode_of_op (hop ▸ h), hrd, hsrc]
  · rw [decode_of_illegal h, decode_of_illegal (hop ▸ h), hcause h]

theorem Instr.ofParts_ne_illegal (op : Op) (rd : Reg) (src : Source) (c : BitVec 3) :
    Instr.ofParts op rd src ≠ .illegal c := by
  cases op <;> cases src <;> nofun

theorem exists_op_of_opField_ne_illegal {w : InstrWord} (h : opField w ≠ 0b11#2) : ∃ op : Op, opField w = op.code := by
  rcases Op.ofCode_cases (opField w) with ⟨op, -, hop⟩ | ⟨-, hop⟩
  · exact ⟨op, hop⟩
  · exact absurd hop h

/-- R43: a word decodes to ILLEGAL exactly when its opcode field is `0b11`. -/
theorem decode_illegal_iff (w : InstrWord) : (∃ c, decode w = .illegal c) ↔ opField w = 0b11#2 := by
  refine ⟨fun ⟨c, hc⟩ => ?_, fun h => ⟨_, decode_of_illegal h⟩⟩
  by_contra h
  obtain ⟨op, hop⟩ := exists_op_of_opField_ne_illegal h
  exact Instr.ofParts_ne_illegal _ _ _ c ((decode_of_op hop).symm.trans hc)

end Sys2Proof

namespace Sys2Proof.Machine

/-- R43, R62: executing a word completes, and raises a fault exactly when its opcode field is `0b11`. -/
theorem execute_raises_iff (w : InstrWord) (s : State) :
    ∃ t, execute w s = .next t ∧ (t.raised ≠ none ↔ opField w = 0b11#2) := by
  rcases Op.ofCode_cases (opField w) with ⟨op, -, h⟩ | ⟨-, h⟩
  · exact ⟨_, execute_of_op h s, by simp [h]⟩
  · exact ⟨_, execute_of_illegal h s, by simp [h]⟩

/-! ### The statements about words alone -/

/-- Settles O33: the value of a packed word is that of its fields, which determine it. -/
theorem wordLayoutIsFixed : Obligations.WordLayoutIsFixed :=
  ⟨packFields_toNat, packFields_fields, fun w _ => causeField_toNat w⟩

/-- Settles O38: the upper quarter of all words decodes to ILLEGAL and faults; every other word is an operation's. -/
theorem onlyOpcodeThreeIsIllegal : Obligations.OnlyOpcodeThreeIsIllegal := by
  refine ⟨decode_illegal_iff, opField_eq_illegal_iff, fun w h => ?_, execute_raises_iff⟩
  obtain ⟨op, hop⟩ := exists_op_of_opField_ne_illegal h
  exact ⟨op, hop, decode_of_op hop⟩

end Sys2Proof.Machine
end

section
/-!
SUPPORT. The assembler line by line (30_encoding.md R46 to R51): one equation for each way a line can end, in the order
of the checks, and the statements about lines assembled from them.
-/

namespace Sys2Proof.Machine

/-! ### Names and tokens -/

theorem regOfName_of_noRegister {t : Text} (h : NoRegister t) : regOfName t = none := by
  cases hr : regOfName t with
  | none => rfl
  | some r => exact absurd (regOfName_eq_some hr) (h r)

theorem opOfMnemonic_of_unknown {t : Text} (h : ∀ op, t ≠ mnemonic op) : opOfMnemonic t = none := by
  cases hop : opOfMnemonic t with
  | none => rfl
  | some op => exact absurd (opOfMnemonic_eq_some hop) (h op)

/-- R48: a destination that is neither an immediate nor a register name. -/
theorem parseDest_of_neither {t : Text} (hh : NoHash t) (hr : NoRegister t) :
    parseDest t = .error .unknownRegister := by
  unfold parseDest
  split
  · exact absurd rfl (hh _)
  · rw [regOfName_of_noRegister hr]

/-- R49: a source that is neither an immediate nor a register name. -/
theorem parseSource_of_neither {t : Text} (hh : NoHash t) (hr : NoRegister t) :
    parseSource t = .error .unknownRegister := by
  unfold parseSource
  split
  · exact absurd rfl (hh _)
  · rw [regOfName_of_noRegister hr]

theorem parseSource_badImmediate {h : Text} (hx : isHexDigitString h = false) :
    parseSource ('#' :: h) = .error .invalidImmediate := by
  simp [parseSource, hx]

/-- R50: reducing the value first changes nothing in the immediate's field. -/
theorem ofNat_mod_word (v : Nat) : BitVec.ofNat 16 (v % 2 ^ 16) = BitVec.ofNat 16 v := by
  apply BitVec.eq_of_toNat_eq
  simp

/-! ### The ends of a line (R51, R77) -/

theorem assembleLine_of_short {line : Text} (h : (tokens line).length < 3) :
    assembleLine line = illegalWord .malformedInstruction := by
  unfold assembleLine
  split
  · next m d t rest htok =>
    simp only [htok, List.length_cons] at h
    omega
  · rfl

section ThreeTokens

variable {line m d t : Text} {rest : List Text} (htok : tokens line = m :: d :: t :: rest)
include htok

theorem assembleLine_of_unknown_mnemonic (hm : ∀ op, asciiUpper m ≠ mnemonic op) :
    assembleLine line = illegalWord .unknownInstruction := by
  simp [assembleLine, htok, opOfMnemonic_of_unknown hm]

variable {op : Op} (hm : asciiUpper m = mnemonic op)
include hm

theorem assembleLine_of_dest_error {c : Cause} (hd : parseDest d = .error c) : assembleLine line = illegalWord c := by
  simp [assembleLine, htok, hm, hd]

variable {rd : Reg} (hd : parseDest d = .ok rd)
include hd

theorem assembleLine_of_source_error {c : Cause} (hs : parseSource t = .error c) :
    assembleLine line = illegalWord c := by
  simp [assembleLine, htok, hm, hd, hs]

theorem assembleLine_of_source_ok {src : Source} (hs : parseSource t = .ok src) :
    assembleLine line = encodeParts op rd src := by
  simp [assembleLine, htok, hm, hd, hs]

end ThreeTokens

/-- With a good mnemonic a line ends in an ILLEGAL word, or its destination token names the word's register. -/
theorem assembleLine_cases_of_mnemonic {line m d t : Text} {rest : List Text} {op : Op}
    (htok : tokens line = m :: d :: t :: rest) (hm : asciiUpper m = mnemonic op) :
    (∃ rd src, parseDest d = .ok rd ∧ assembleLine line = encodeParts op rd src) ∨
      ∃ c, assembleLine line = illegalWord c := by
  cases hd : parseDest d with
  | error c => exact .inr ⟨c, assembleLine_of_dest_error htok hm hd⟩
  | ok rd =>
    cases hs : parseSource t with
    | error c => exact .inr ⟨c, assembleLine_of_source_error htok hm hd hs⟩
    | ok src => exact .inl ⟨rd, src, rfl, assembleLine_of_source_ok htok hm hd hs⟩

/-- A line of fewer than three tokens has no mnemonic to look at; any other has its first three. -/
theorem tokens_short_or_three (line : Text) :
    (tokens line).length < 3 ∨ ∃ m d t rest, tokens line = m :: d :: t :: rest := by
  rcases htok : tokens line with _ | ⟨m, _ | ⟨d, _ | ⟨t, rest⟩⟩⟩
  · exact .inl (by simp)
  · exact .inl (by simp)
  · exact .inl (by simp)
  · exact .inr ⟨m, d, t, rest, rfl⟩

/-- R46: of a line's tokens only the first three are looked at. -/
theorem assembleLine_of_take_three {l k : Text} (hl : 3 ≤ (tokens l).length)
    (hlk : (tokens l).take 3 = (tokens k).take 3) : assembleLine l = assembleLine k := by
  have hk : 3 ≤ (tokens k).length := by
    have hlen := congrArg List.length hlk
    simp only [List.length_take] at hlen
    omega
  obtain ⟨m, d, t, rest, hl⟩ := (tokens_short_or_three l).resolve_left (by omega)
  obtain ⟨m', d', t', rest', hk⟩ := (tokens_short_or_three k).resolve_left (by omega)
  obtain ⟨rfl, rfl, rfl⟩ : m = m' ∧ d = d' ∧ t = t' := by simpa [hl, hk] using hlk
  simp [assembleLine, hl, hk]

/-- R51: every line assembles to a word of the encoder, of an operation or of a cause. -/
theorem assembleLine_cases (line : Text) :
    (∃ op rd src, assembleLine line = encodeParts op rd src) ∨ ∃ c, assembleLine line = illegalWord c := by
  rcases tokens_short_or_three line with hshort | ⟨m, d, t, rest, htok⟩
  · exact .inr ⟨_, assembleLine_of_short hshort⟩
  · by_cases hm : ∃ op, asciiUpper m = mnemonic op
    · obtain ⟨op, hm⟩ := hm
      rcases assembleLine_cases_of_mnemonic htok hm with ⟨rd, src, -, hline⟩ | hill
      · exact .inl ⟨op, rd, src, hline⟩
      · exact .inr hill
    · exact .inr ⟨_, assembleLine_of_unknown_mnemonic htok (not_exists.1 hm)⟩

/-- R40: the assembler writes zero into every ignored field. -/
theorem canonicalWord_assembleLine (line : Text) : canonicalWord (assembleLine line) = assembleLine line := by
  rcases assembleLine_cases line with ⟨op, rd, src, hline⟩ | ⟨c, hline⟩
  · rw [hline, canonicalWord_encodeParts]
  · rw [hline, illegalWord, canonicalWord_encodeIllegal]

@[simp] theorem opField_illegalWord (c : Cause) : opField (illegalWord c) = 0b11#2 := opField_encodeIllegal c.code

@[simp] theorem rdField_encodeParts (op : Op) (rd : Reg) (src : Source) :
    rdField (encodeParts op rd src) = rd.index := by
  cases src <;> simp [encodeParts]

/-! ### The letters of a mnemonic (R47) -/

theorem upperChar_of_lower {c : Char} (h : 0x61 ≤ c.toNat ∧ c.toNat ≤ 0x7A) :
    (upperChar c).toNat = c.toNat - 0x20 := by
  have hvalid : (c.toNat - 0x20).isValidChar := .inl (by omega)
  rw [upperChar, if_pos h, Char.toNat_ofNat, if_pos hvalid]

theorem upperChar_of_not_lower {c : Char} (h : ¬(0x61 ≤ c.toNat ∧ c.toNat ≤ 0x7A)) : upperChar c = c := if_neg h

/-! ### The statements about lines -/

/-- Settles O36: the decoder does not read the ignored fields, and every word of the encoder is canonical. -/
theorem ignoredFieldsDoNotMatter : Obligations.IgnoredFieldsDoNotMatter := by
  refine ⟨fun w v s hop hcause hparts => ?_, canonicalWord_assembleLine, fun w => ?_⟩
  · have hdecode : decode w = decode v := decode_congr hop hcause fun h => by
      obtain ⟨hrd, hs, himm, hrs⟩ := hparts h
      exact ⟨hrd, sourceOf_congr hs himm hrs⟩
    rw [execute, execute, hdecode]
  · by_cases h : opField w = 0b11#2
    · simpa [h] using canonicalWord_eq_self_iff_of_illegal h
    · simpa [h] using canonicalWord_eq_self_iff_of_op h

/-- Settles O37: an ILLEGAL word decodes to its low three bits, and the assembler writes the encoder's. -/
theorem illegalWordsNameCauses : Obligations.IllegalWordsNameCauses := by
  refine ⟨fun w h => ⟨decode_of_illegal h, causeField_toNat w⟩, rfl, rfl, rfl, rfl, rfl, ?_, fun line h => ?_,
    fun c => ?_⟩
  · rintro c (rfl | rfl | rfl) <;> rfl
  · rcases assembleLine_cases line with ⟨op, rd, src, hline⟩ | ⟨c, hline⟩
    · rw [hline, opField_encodeParts] at h
      exact absurd h op.code_ne_illegal
    · exact ⟨c, hline.trans (encodeIllegal_eq_or c.code)⟩
  · exact ⟨encodeIllegal_eq_or c, by rw [decode_of_illegal (opField_encodeIllegal c), causeField_encodeIllegal]⟩

/-- Settles O44: a line is assembled from its first three tokens. -/
theorem lineArity : Obligations.LineArity := ⟨fun _ => assembleLine_of_short, fun _ _ => assembleLine_of_take_three⟩

/-- Settles O45: the letters one by one, and the mnemonic check of a line. -/
theorem mnemonicSelectsOpcode : Obligations.MnemonicSelectsOpcode := by
  refine ⟨fun _ => upperChar_of_lower, fun _ => upperChar_of_not_lower, fun _ => rfl, opOfMnemonic_mnemonic,
    ⟨rfl, rfl, rfl⟩, fun line m d t rest op htok hm => ?_, fun line m d t rest => assembleLine_of_unknown_mnemonic,
    by decide, by decide⟩
  rcases assembleLine_cases_of_mnemonic htok hm with ⟨rd, src, -, hline⟩ | ⟨c, hline⟩
  · exact .inl (by simp [hline])
  · exact .inr (by simp [hline])

/-- Settles O46: the three ends of the destination check. -/
theorem destinationToken : Obligations.DestinationToken := by
  refine ⟨fun line m d t rest op htok hm => ⟨?_, fun hh hr => ?_, ?_⟩, ⟨rfl, rfl, rfl, rfl⟩, fun r => ?_⟩
  · rintro ⟨h, rfl⟩
    exact assembleLine_of_dest_error htok hm (parseDest_immediate h)
  · exact assembleLine_of_dest_error htok hm (parseDest_of_neither hh hr)
  · rintro r rfl hop
    rcases assembleLine_cases_of_mnemonic htok hm with ⟨rd, src, hd, hline⟩ | ⟨c, hline⟩
    · obtain rfl : r = rd := by simpa using hd
      rw [hline, rdField_encodeParts]
    · exact absurd (hline ▸ opField_illegalWord c) hop
  · cases r <;> decide

/-- Settles O47: the four ends of the source check. -/
theorem sourceToken : Obligations.SourceToken := by
  intro line m rd t rest op htok hm
  have hd := parseDest_regName rd
  refine ⟨?_, ?_, ?_, fun hh hr => ?_⟩
  · rintro h rfl hx
    rw [assembleLine_of_source_ok htok hm hd (parseSource_immediate hx), ofNat_mod_word]
    rfl
  · rintro h rfl hx
    exact assembleLine_of_source_error htok hm hd (parseSource_badImmediate hx)
  · rintro rs rfl
    exact assembleLine_of_source_ok htok hm hd (parseSource_regName rs)
  · exact assembleLine_of_source_error htok hm hd (parseSource_of_neither hh hr)

end Sys2Proof.Machine
end

section
/-!
SUPPORT. Program text and its lines (30_encoding.md R44), and a line and its tokens (R45): what trimming leaves, what
cutting at line feeds undoes, and where a token stands in a line.
-/

namespace Sys2Proof.Machine

/-! ### Trimming -/

/-- The model's trimming of the end is the library's. -/
theorem trim_eq_rdropWhile (t : Text) : trim t = (t.dropWhile isSpace).rdropWhile isSpace := rfl

theorem trim_decomposes (t : Text) :
    ∃ pre post, t = pre ++ trim t ++ post ∧ ∀ c ∈ pre ++ post, isSpace c = true := by
  refine ⟨t.takeWhile isSpace, (t.dropWhile isSpace).rtakeWhile isSpace, ?_, fun c hc => ?_⟩
  · rw [trim_eq_rdropWhile, List.append_assoc, List.rdropWhile_append_rtakeWhile, List.takeWhile_append_dropWhile]
  · rcases List.mem_append.1 hc with h | h
    · exact List.mem_takeWhile_imp h
    · exact List.mem_rtakeWhile_imp h

theorem isSpace_of_head_trim {t : Text} {c : Char} (h : (trim t).head? = some c) : isSpace c = false := by
  have hhead : (t.dropWhile isSpace).head? = some c := by
    rw [← List.singleton_prefix_iff_head?_eq_some] at h ⊢
    exact h.trans (List.rdropWhile_prefix isSpace _)
  have hnot := List.head?_dropWhile_not isSpace t
  rwa [hhead] at hnot

theorem isSpace_of_getLast_trim {t : Text} {c : Char} (h : (trim t).getLast? = some c) : isSpace c = false := by
  obtain ⟨hne, rfl⟩ := List.mem_getLast?_eq_getLast h
  exact Bool.eq_false_iff.2 (List.rdropWhile_last_not isSpace _ hne)

/-! ### Cutting at line feeds -/

theorem toNat_beq_lineFeed (c : Char) : (c.toNat == 0x0A) = (c == '\n') := by
  rw [Bool.eq_iff_iff, beq_iff_eq, beq_iff_eq, ← Char.toNat_inj]
  rfl

theorem extendFirst_of_ne_nil (c : Char) {ts : List Text} (h : ts ≠ []) :
    extendFirst c ts = ts.modifyHead (List.cons c) := by
  cases ts with
  | nil => exact absurd rfl h
  | cons t ts => rfl

/-- The model's cutting is the library's. -/
theorem cutAtLF_eq_splitOn (t : Text) : cutAtLF t = t.splitOn '\n' := by
  induction t with
  | nil => rfl
  | cons c cs ih =>
    have hne : cs.splitOn '\n' ≠ [] := List.splitOnP_ne_nil _ cs
    rw [cutAtLF, toNat_beq_lineFeed, ih, extendFirst_of_ne_nil c hne]
    exact (List.splitOnP_cons_eq_if_modifyHead (p := (· == '\n')) c cs).symm

theorem mem_extendFirst {c : Char} {t : Text} {ts : List Text} (h : t ∈ extendFirst c ts) :
    t ∈ ts ∨ ∃ u, t = c :: u ∧ (u = [] ∨ u ∈ ts) := by
  cases ts with
  | nil => exact .inr ⟨[], by simpa [extendFirst] using h, .inl rfl⟩
  | cons u us =>
    rcases List.mem_cons.1 h with rfl | h
    · exact .inr ⟨u, rfl, .inr List.mem_cons_self⟩
    · exact .inl (List.mem_cons_of_mem u h)

theorem not_lineFeed_mem_cutAtLF {t l : Text} (h : l ∈ cutAtLF t) : '\n' ∉ l := by
  induction t generalizing l with
  | nil => exact List.mem_singleton.1 h ▸ List.not_mem_nil
  | cons c cs ih =>
    rw [cutAtLF] at h
    split at h
    · rcases List.mem_cons.1 h with rfl | h
      · exact List.not_mem_nil
      · exact ih h
    · next hc =>
      rcases mem_extendFirst h with h | ⟨u, rfl, hu⟩
      · exact ih h
      · intro hmem
        rcases List.mem_cons.1 hmem with rfl | hmem
        · exact hc rfl
        · rcases hu with rfl | hu
          · simp at hmem
          · exact ih hu hmem

/-- R44: the lines of a text that is not blank are its trimmed part cut at line feeds. -/
theorem lines_of_trim_ne_nil {t : Text} (h : trim t ≠ []) : lines t = cutAtLF (trim t) := by
  simp [lines, h]

/-! ### Tokens -/

theorem extendFirst_append (c : Char) {ts : List Text} (h : ts ≠ []) (us : List Text) :
    extendFirst c (ts ++ us) = extendFirst c ts ++ us := by
  cases ts with
  | nil => exact absurd rfl h
  | cons t ts => rfl

theorem tokens_of_blank {l : Text} (h : ∀ c ∈ l, isSpace c = true) : tokens l = [] := by
  induction l with
  | nil => rfl
  | cons c cs ih =>
    rw [tokens_of_space (h c List.mem_cons_self)]
    exact ih fun d hd => h d (List.mem_cons_of_mem c hd)

/-- The characters of a token are not whitespace, and there is one. -/
theorem mem_tokens {l t : Text} (h : t ∈ tokens l) : t ≠ [] ∧ ∀ c ∈ t, isSpace c = false := by
  induction l generalizing t with
  | nil => simp at h
  | cons c cs ih =>
    cases hc : isSpace c with
    | true => exact ih (tokens_of_space hc cs ▸ h)
    | false =>
      cases hs : startsToken cs with
      | true =>
        rw [tokens_of_more hc hs] at h
        rcases mem_extendFirst h with h | ⟨u, rfl, rfl | hu⟩
        · exact ih h
        · simpa using hc
        · simpa [hc] using (ih hu).2
      | false =>
        rw [tokens_of_last hc hs] at h
        rcases List.mem_cons.1 h with rfl | h
        · simpa using hc
        · exact ih h

theorem tokens_ne_nil {l : Text} (h : startsToken l = true) : tokens l ≠ [] := by
  cases l with
  | nil => cases h
  | cons c cs =>
    have hc : isSpace c = false := by simpa [startsToken] using h
    cases hs : startsToken cs with
    | true =>
      rw [tokens_of_more hc hs]
      cases tokens cs <;> simp [extendFirst]
    | false => simp [tokens_of_last hc hs]

theorem startsToken_of_head {l : Text} (h : ∀ c, l.head? = some c → isSpace c = true) : startsToken l = false := by
  cases l with
  | nil => rfl
  | cons c cs => simp [startsToken, h c rfl]

/-- A run up to whitespace or the end is the first token. -/
theorem tokens_run_append {t post : Text} (hne : t ≠ []) (ht : ∀ c ∈ t, isSpace c = false)
    (hpost : startsToken post = false) : tokens (t ++ post) = t :: tokens post := by
  induction t with
  | nil => exact absurd rfl hne
  | cons c cs ih =>
    have hc := ht c List.mem_cons_self
    cases cs with
    | nil => exact tokens_of_last hc hpost
    | cons d ds =>
      have hd : startsToken (d :: ds ++ post) = true := by simp [startsToken, ht d (by simp)]
      rw [List.cons_append, tokens_of_more hc hd, ih (by simp) fun e he => ht e (List.mem_cons_of_mem c he)]
      rfl

/-- Nothing of what stands before a whitespace character or the start runs on into what follows. -/
theorem tokens_append {pre : Text} (h : ∀ c, pre.getLast? = some c → isSpace c = true) (post : Text) :
    tokens (pre ++ post) = tokens pre ++ tokens post := by
  induction pre with
  | nil => rfl
  | cons c cs ih =>
    cases cs with
    | nil => simp [tokens_of_space (h c rfl)]
    | cons d ds =>
      have ih := ih (by simpa using h)
      cases hc : isSpace c with
      | true => rw [List.cons_append, tokens_of_space hc, tokens_of_space hc, ih]
      | false =>
        cases hs : startsToken (d :: ds) with
        | true =>
          have hs' : startsToken (d :: ds ++ post) = true := hs
          rw [List.cons_append, tokens_of_more hc hs', tokens_of_more hc hs, ih,
            extendFirst_append c (tokens_ne_nil hs)]
        | false =>
          have hs' : startsToken (d :: ds ++ post) = false := hs
          rw [List.cons_append, tokens_of_last hc hs', tokens_of_last hc hs, ih, List.cons_append]

/-! ### Characters outside ASCII -/

theorem upperChar_of_nonASCII {c : Char} (h : 128 ≤ c.toNat) : upperChar c = c := upperChar_of_not_lower (by omega)

theorem regName_isASCII (r : Reg) : ∀ c ∈ regName r, c.toNat < 128 := by cases r <;> simp [regName]

theorem mnemonic_isASCII (op : Op) : ∀ c ∈ mnemonic op, c.toNat < 128 := by cases op <;> simp [mnemonic]

theorem isHexDigitString_iff (h : Text) :
    isHexDigitString h = true ↔ h ≠ [] ∧ ∀ c ∈ h, (hexDigit c).isSome = true := by
  cases h <;> simp [isHexDigitString]

theorem hexDigit_of_nonASCII {c : Char} (h : 128 ≤ c.toNat) : hexDigit c = none := by
  rw [hexDigit, if_neg (by omega), if_neg (by omega), if_neg (by omega)]

/-- R45: a token with a character outside ASCII is not a name of ASCII characters. -/
theorem ne_of_mem_nonASCII {t name : Text} {c : Char} (hc : c ∈ t) (hbig : 128 ≤ c.toNat)
    (hname : ∀ d ∈ name, d.toNat < 128) : t ≠ name := by
  rintro rfl
  exact absurd (hname c hc) (by omega)

theorem mem_asciiUpper_of_nonASCII {t : Text} {c : Char} (hc : c ∈ t) (hbig : 128 ≤ c.toNat) : c ∈ asciiUpper t :=
  List.mem_map.2 ⟨c, hc, upperChar_of_nonASCII hbig⟩

/-! ### The statements -/

/-- Settles O42: trimming, cutting and joining, by the library's `rdropWhile` and `splitOn`. -/
theorem linesOfProgramText : Obligations.LinesOfProgramText := by
  refine ⟨trim_decomposes, fun t c h => h.elim isSpace_of_head_trim isSpace_of_getLast_trim,
    fun t h => by simp [lines, h], fun t h => ?_, fun t k => List.getElem?_map, fun l h => ?_⟩
  · rw [lines_of_trim_ne_nil h]
    refine ⟨?_, fun l => not_lineFeed_mem_cutAtLF⟩
    rw [cutAtLF_eq_splitOn, List.intercalate_splitOn]
  · exact assembleLine_of_short (by simp [tokens_of_blank h])

/-- Settles O43: a run bounded by whitespace is cut off on both sides, and no name or digit is outside ASCII. -/
theorem tokensAreMaximalRuns : Obligations.TokensAreMaximalRuns := by
  refine ⟨fun c => by simp [isSpace, or_assoc], fun line t => mem_tokens, fun pre t post hne ht hpre hpost => ?_,
    fun line => tokens_of_blank, by decide, fun t c hc hbig => ⟨?_, ?_, ?_⟩⟩
  · rw [List.append_assoc, tokens_append hpre, tokens_run_append hne ht (startsToken_of_head hpost)]
  · exact regOfName_of_noRegister fun r => ne_of_mem_nonASCII hc hbig (regName_isASCII r)
  · exact opOfMnemonic_of_unknown fun op =>
      ne_of_mem_nonASCII (mem_asciiUpper_of_nonASCII hc hbig) hbig (mnemonic_isASCII op)
  · refine Bool.eq_false_iff.2 fun hx => ?_
    obtain ⟨-, hall⟩ := (isHexDigitString_iff t).1 hx
    simpa [hexDigit_of_nonASCII hbig] using hall c hc

end Sys2Proof.Machine
end

section
/-!
SUPPORT. Hex digit strings (30_encoding.md R50): the digits and their worth, and the value of a string read from its
last digit.
-/

namespace Sys2Proof.Machine

/-- R50: the twenty-two hex digits. -/
theorem hexDigit_isSome_iff (c : Char) : (hexDigit c).isSome = true ↔ c ∈ "0123456789abcdefABCDEF".toList := by
  have hdigits : "0123456789abcdefABCDEF".toList.map Char.toNat =
      List.range' 0x30 10 ++ List.range' 0x61 6 ++ List.range' 0x41 6 := by decide
  have hinj : Function.Injective Char.toNat := fun _ _ => Char.toNat_inj.1
  rw [← List.mem_map_of_injective hinj, hdigits]
  simp only [List.mem_append, List.mem_range'_1, hexDigit]
  split_ifs <;> simp <;> omega

theorem hexDigit_hexChar {k : Nat} (h : k < 16) : hexDigit (hexChar k) = some k := by
  revert k
  decide

theorem hexValue_append_digit (h : Text) {c : Char} {d : Nat} (hc : hexDigit c = some d) :
    hexValue (h ++ [c]) = 16 * hexValue h + d := by
  rw [hexValue_append_singleton, hc, Option.getD_some]

theorem hexValue_singleton {c : Char} {d : Nat} (hc : hexDigit c = some d) : hexValue [c] = d := by
  simp [hexValue, hc]

theorem hexValue_leading_zeros (n : Nat) (h : Text) : hexValue (List.replicate n '0' ++ h) = hexValue h := by
  induction n with
  | zero => rfl
  | succ n ih => exact ih

theorem isHexDigitString_append_digit {h : Text} {c : Char} {d : Nat} (hx : isHexDigitString h = true)
    (hc : hexDigit c = some d) : isHexDigitString (h ++ [c]) = true := by
  obtain ⟨-, hall⟩ := (isHexDigitString_iff h).1 hx
  refine (isHexDigitString_iff _).2 ⟨by simp, fun e he => ?_⟩
  rcases List.mem_append.1 he with he | he
  · exact hall e he
  · rw [List.mem_singleton.1 he, hc, Option.isSome_some]

/-- Every value has a string: that of its sixteenth part, and its last digit. -/
theorem exists_hexDigitString (v : Nat) : ∃ h, isHexDigitString h = true ∧ hexValue h = v := by
  induction v using Nat.strongRecOn with
  | ind v ih =>
    rcases Nat.lt_or_ge v 16 with hsmall | hbig
    · have hc := hexDigit_hexChar hsmall
      exact ⟨[hexChar v], by simp [isHexDigitString, hc], hexValue_singleton hc⟩
    · obtain ⟨h, hx, hv⟩ := ih (v / 16) (by omega)
      have hc := hexDigit_hexChar (Nat.mod_lt v (by decide : 0 < 16))
      exact ⟨h ++ [hexChar (v % 16)], isHexDigitString_append_digit hx hc, by
        rw [hexValue_append_digit h hc, hv, Nat.div_add_mod]⟩

/-- Settles O48: a string is read from its last digit, and every value is written that way. -/
theorem hexDigitStrings : Obligations.HexDigitStrings := by
  refine ⟨fun h => ?_, by decide, fun c d => hexValue_singleton, fun h c d => hexValue_append_digit h,
    hexValue_leading_zeros, exists_hexDigitString, by decide, fun h hx => ?_⟩
  · simp only [isHexDigitString_iff, hexDigit_isSome_iff]
  · rw [parseSource_immediate hx, ofNat_mod_word]

end Sys2Proof.Machine
end

section
/-!
SUPPORT. The operations of 40_alu.md: the arithmetic of the ALU, the one write of the datapath, what the multiplexer and
the decoder read of a word, and the statements about executing a word assembled from that.
-/

namespace Sys2Proof

theorem Op.code_injective : Function.Injective Op.code := fun op op' h => by
  simpa using congrArg Op.ofCode h

/-- R55: the select bit is bit 19. -/
theorem sField_eq_one_iff (w : InstrWord) : sField w = 1#1 ↔ w.getLsbD 19 = true := by
  have hbit : (sField w).getLsbD 0 = w.getLsbD 19 := by simp [sField]
  rw [← hbit]
  generalize sField w = s
  revert s
  decide

/-- R39: the select bit chooses between the two forms of an operation. -/
theorem decode_of_op_by_select {w : InstrWord} {op : Op} (h : opField w = op.code) :
    decode w = if sField w = 1#1 then Instr.ofParts op (Reg.ofIndex (rdField w)) (.imm (immField w))
      else Instr.ofParts op (Reg.ofIndex (rdField w)) (.reg (Reg.ofIndex (rsField w))) := by
  rw [decode_of_op h, sourceOf, apply_ite (Instr.ofParts op _)]

end Sys2Proof

namespace Sys2Proof.Machine

/-! ### The ALU (R56, R61) -/

theorem alu_add_toNat (a b : Word) : (alu .add a b).toNat = (a.toNat + b.toNat) % 65536 := by
  rw [alu_add, BitVec.toNat_add]

theorem alu_sub_toNat (a b : Word) : ((alu .sub a b).toNat : Int) = (a.toNat - b.toNat : Int) % 65536 := by
  have hb := b.isLt
  rw [alu_sub, BitVec.toNat_sub]
  omega

/-- The claims' wrapping arithmetic is the ALU's. -/
theorem alu_eq_resultOf (op : Op) (a b : Word) : alu op a b = resultOf op a b := by
  cases op with
  | mov => rfl
  | add => exact alu_add a b
  | sub => exact alu_sub a b

/-! ### The datapath (R56) -/

theorem operate_onlyRegChanges (op : Op) (rd : Reg) (src : Source) (s : State) :
    OnlyRegChanges rd s (operate op rd src s) :=
  ⟨fun _ h => readReg_operate_other op src s h, rfl, rfl, rfl, rfl, rfl, rfl⟩

theorem readReg_operate_add_toNat (rd : Reg) (src : Source) (s : State) :
    (readReg rd (operate .add rd src s)).toNat = ((readReg rd s).toNat + (sourceValue src s).toNat) % 65536 := by
  rw [readReg_operate_same, alu_add_toNat]

theorem readReg_operate_sub_toNat (rd : Reg) (src : Source) (s : State) :
    ((readReg rd (operate .sub rd src s)).toNat : Int) =
      ((readReg rd s).toNat - (sourceValue src s).toNat : Int) % 65536 := by
  rw [readReg_operate_same, alu_sub_toNat]

/-- An operation whose result is its destination's old value changes nothing. -/
theorem operate_eq_self {op : Op} {rd : Reg} {src : Source} {s : State}
    (h : alu op (readReg rd s) (sourceValue src s) = readReg rd s) : operate op rd src s = s := by
  rw [operate_eq_writeReg, h, writeReg_readReg_same]

/-- A register subtracted from itself gives zero: both operands are read before the write (R91). -/
theorem readReg_operate_sub_self (r : Reg) (s : State) : readReg r (operate .sub r (.reg r) s) = 0#16 := by
  rw [readReg_operate_same, alu_sub]
  exact BitVec.sub_self _

theorem exec_movRR_self (r : Reg) (s : State) : exec (.movRR r r) s = .next s := by
  rw [exec_movRR, operate_eq_self rfl]

/-- R55: the source operand of a word, by its select bit. -/
theorem sourceValue_sourceOf (w : InstrWord) (s : State) :
    sourceValue (sourceOf w) s = if sField w = 1#1 then immField w else readReg (Reg.ofIndex (rsField w)) s := by
  rw [sourceOf, apply_ite (sourceValue · s)]
  rfl

/-- R58's property: after `MOV q #a`, `MOV r #b`, the source holds `b`, and so does the destination if it is the same
register. -/
theorem readReg_after_two_moves (q r : Reg) (a b : Word) (s : State) :
    readReg q (operate .mov r (.imm b) (operate .mov q (.imm a) s)) = if q = r then b else a := by
  split
  · next h => rw [h, readReg_operate_same, alu_mov, sourceValue_imm]
  · next h => rw [readReg_operate_other _ _ _ h, readReg_operate_same, alu_mov, sourceValue_imm]

/-! ### The statements about words -/

/-- Settles O7: by the opcode field, a word raises its cause or runs the datapath, whose one write is the result. -/
theorem executeIsAllOrNothing : Obligations.ExecuteIsAllOrNothing := by
  refine fun w s => ⟨fun h => execute_of_illegal h s, fun h => ?_⟩
  obtain ⟨op, hop⟩ := exists_op_of_opField_ne_illegal h
  have hresult := readReg_operate_same op (Reg.ofIndex (rdField w)) (sourceOf w) { s with raised := none }
  rw [sourceValue_sourceOf] at hresult
  refine ⟨_, execute_of_op hop s, rfl, operate_onlyRegChanges .., fun hmov => ?_, fun hadd => ?_, fun hsub => ?_⟩
  · obtain rfl : op = .mov := Op.code_injective (hop.symm.trans hmov)
    exact hresult
  · obtain rfl : op = .add := Op.code_injective (hop.symm.trans hadd)
    rw [hresult]
    exact alu_add_toNat ..
  · obtain rfl : op = .sub := Op.code_injective (hop.symm.trans hsub)
    rw [hresult]
    exact alu_sub_toNat ..

/-- Settles O8: the multiplexer's choice, and the datapath's result in terms of the state before the write. -/
theorem operandsReadBeforeWrite : Obligations.OperandsReadBeforeWrite := by
  refine ⟨fun w s => ?_, fun op rd src s => ⟨_, exec_ofParts op rd src s, ?_⟩, fun r s => ⟨_, exec_addRR r r s, ?_⟩,
    fun r s => ⟨_, exec_subRR r r s, readReg_operate_sub_self r s⟩, exec_movRR_self⟩
  · simp only [sourceValue_sourceOf, sField_eq_one_iff]
  · rw [readReg_operate_same, alu_eq_resultOf]
  · rw [readReg_operate_same, alu_add, sourceValue_reg]

/-- Settles O9: the ALU's integer arithmetic, the datapath's silence, and the closed list of operations. -/
theorem arithmeticWrapsSilently : Obligations.ArithmeticWrapsSilently := by
  refine ⟨alu_add_toNat, alu_sub_toNat,
    fun op rd src s => ⟨_, exec_ofParts op rd src s, rfl, readReg_operate_same op rd src s⟩, fun i => ?_⟩
  rcases i.eq_ofParts_or_illegal with ⟨op, rd, src, rfl⟩ | hillegal
  · cases op with
    | mov => exact .inl ⟨rd, src, rfl⟩
    | add => exact .inr (.inl ⟨rd, src, rfl⟩)
    | sub => exact .inr (.inr (.inl ⟨rd, src, rfl⟩))
  · exact .inr (.inr (.inr hillegal))

end Sys2Proof.Machine
end

section
/-!
SUPPORT. MOV, ADD, SUB and ILLEGAL from text to result (40_alu.md R57 to R60): what a line with a good mnemonic decodes
to, and the statements about each instruction.
-/

namespace Sys2Proof.Machine

/-! ### Decoding assembled lines -/

@[simp] theorem sourceOf_encodeParts (op : Op) (rd : Reg) (src : Source) : sourceOf (encodeParts op rd src) = src := by
  cases src <;> simp [encodeParts, sourceOf]

@[simp] theorem decode_encodeParts (op : Op) (rd : Reg) (src : Source) :
    decode (encodeParts op rd src) = Instr.ofParts op rd src := by
  rw [decode_of_op (opField_encodeParts op rd src), rdField_encodeParts, Reg.ofIndex_index, sourceOf_encodeParts]

@[simp] theorem decode_illegalWord (c : Cause) : decode (illegalWord c) = .illegal c.code := by
  rw [decode_of_illegal (opField_illegalWord c), illegalWord, causeField_encodeIllegal]

/-- The destination check reports nothing about the mnemonic (R48). -/
theorem parseDest_ne_unknownInstruction (t : Text) : parseDest t ≠ .error .unknownInstruction := by
  unfold parseDest
  split
  · simp
  · split <;> simp

/-- The source check reports nothing about the mnemonic (R49). -/
theorem parseSource_ne_unknownInstruction (t : Text) : parseSource t ≠ .error .unknownInstruction := by
  unfold parseSource
  split
  · split <;> simp
  · split <;> simp

/-- A line that assembles to the ILLEGAL word of another cause than UnknownInstruction. -/
theorem assemblesTo_of_illegalWord (op : Op) {line : Text} {c : Cause} (hline : assembleLine line = illegalWord c)
    (hc : c ≠ .unknownInstruction) : AssemblesTo op line :=
  .inr ⟨c, hc, by rw [hline, decode_illegalWord]⟩

/-- R57 to R59, "Exceptions": a line with the mnemonic of an operation assembles to it or fails one of the other checks,
taken in the order of R77. -/
theorem assemblesTo_of_mnemonic {op : Op} {line m : Text} {rest : List Text} (htok : tokens line = m :: rest)
    (hm : asciiUpper m = mnemonic op) : AssemblesTo op line := by
  rcases tokens_short_or_three line with hshort | ⟨m', d, t, rest', htok'⟩
  · exact assemblesTo_of_illegalWord op (assembleLine_of_short hshort) (by decide)
  · obtain ⟨rfl, -⟩ := List.cons.inj (htok.symm.trans htok')
    cases hd : parseDest d with
    | error c =>
      exact assemblesTo_of_illegalWord op (assembleLine_of_dest_error htok' hm hd)
        fun hc => parseDest_ne_unknownInstruction d (hc ▸ hd)
    | ok rd =>
      cases hs : parseSource t with
      | error c =>
        exact assemblesTo_of_illegalWord op (assembleLine_of_source_error htok' hm hd hs)
          fun hc => parseSource_ne_unknownInstruction t (hc ▸ hs)
      | ok src => exact .inl ⟨rd, src, by rw [assembleLine_of_source_ok htok' hm hd hs, decode_encodeParts]⟩

/-! ### The statements about instructions -/

/-- Settles O3: the datapath of MOV, its two forms by the select bit, and its lines. -/
theorem movCopiesSource : Obligations.MovCopiesSource := by
  refine ⟨fun rd rs s => ⟨_, exec_movRR rd rs s, readReg_operate_same .., operate_onlyRegChanges ..⟩,
    fun rd v s => ⟨_, exec_movRI rd v s, readReg_operate_same .., operate_onlyRegChanges ..⟩,
    fun w h => decode_of_op_by_select (op := .mov) h, fun line m rest => assemblesTo_of_mnemonic,
    fun line m r h rest htok hm hx => ?_, exec_movRR_self, by decide,
    fun r s => ⟨_, exec_movRI r 0#16 s, readReg_operate_same ..⟩, by decide, by decide⟩
  rw [assembleLine_of_source_ok htok hm (parseDest_regName r) (parseSource_immediate hx), decode_encodeParts]
  rfl

/-- Settles O4: the datapath of ADD, its two forms by the select bit, and its lines. -/
theorem addIsModulo : Obligations.AddIsModulo := by
  refine ⟨
    fun rd rs s => ⟨_, exec_addRR rd rs s, readReg_operate_add_toNat rd (.reg rs) s, operate_onlyRegChanges ..⟩,
    fun rd v s => ⟨_, exec_addRI rd v s, readReg_operate_add_toNat rd (.imm v) s, operate_onlyRegChanges ..⟩,
    fun w h => decode_of_op_by_select (op := .add) h, fun line m rest => assemblesTo_of_mnemonic,
    fun rd s h => ⟨_, _, exec_addRI rd 1#16 s, ?_, exec_addRI rd 0xFFFF#16 s, ?_⟩,
    fun r s => ⟨_, exec_addRR r r s, ?_⟩, fun r s => ?_,
    fun q r a b s => ⟨_, _, _, exec_movRI q a s, exec_movRI r b _, exec_addRR q r _, ?_⟩, by decide, by decide,
    fun s ha hb => ⟨_, exec_addRR .ax .bx s, ?_⟩⟩
  · simp [h]
  · simp [h]
  · rw [readReg_operate_add_toNat, sourceValue_reg, Nat.two_mul]
  · rw [exec_addRI, operate_eq_self (by simp)]
  · rw [readReg_operate_add_toNat, sourceValue_reg, readReg_after_two_moves, readReg_operate_same]
    split <;> rfl
  · simp [ha, hb]

/-- Settles O5: the datapath of SUB, its two forms by the select bit, and its lines. -/
theorem subIsModulo : Obligations.SubIsModulo := by
  refine ⟨
    fun rd rs s => ⟨_, exec_subRR rd rs s, readReg_operate_sub_toNat rd (.reg rs) s, operate_onlyRegChanges ..⟩,
    fun rd v s => ⟨_, exec_subRI rd v s, readReg_operate_sub_toNat rd (.imm v) s, operate_onlyRegChanges ..⟩,
    fun w h => decode_of_op_by_select (op := .sub) h, fun line m rest => assemblesTo_of_mnemonic,
    fun rd s h => ⟨_, _, exec_subRI rd 1#16 s, ?_, exec_subRI rd 0xFFFF#16 s, ?_⟩,
    fun r s => ⟨_, exec_subRR r r s, readReg_operate_sub_self r s⟩, fun r s => ?_, by decide, by decide⟩
  · simp [h]
  · simp [h]
  · rw [exec_subRI, operate_eq_self (by simp)]

/-- Settles O6: an ILLEGAL word decodes to its cause, `exec` raises it, and an unknown mnemonic assembles to one. -/
theorem illegalRaisesItsCause : Obligations.IllegalRaisesItsCause := by
  refine ⟨fun w => decode_of_illegal, exec_illegal, rfl, rfl, rfl, rfl, rfl, rfl, rfl, rfl, by decide,
    execute_of_illegal (by decide), fun line m d t rest htok hm => ?_⟩
  rw [assembleLine_of_unknown_mnemonic htok hm, decode_illegalWord]

end Sys2Proof.Machine
end

section
/-!
SUPPORT. The five host commands (45_host_interface.md R66 to R72): how a command's answer becomes a served step, what one
word does under EXEC, RUN and STEP, and the statements about one command and about the text operations.
-/

namespace Sys2Proof.Machine

/-! ### Serving a command -/

/-- A command that ends in a response, with the later commands still pending, is served. -/
theorem serves_of_serve {cap : Nat} {s u : State} {c : Command} {rest : List Command} {r : Response}
    (hp : s.pending = c :: rest) (h : serve cap c { s with pending := rest } = .next (respond r u))
    (hu : u.pending = rest) : Serves cap s rest r (respond r u) :=
  ⟨(stepWith_pending cap hp).trans h, hu, rfl, rfl⟩

/-- STEP (R69), where it does not stop, runs the entry at the cursor after its capture, the later commands still pending. -/
theorem serve_step {cap : Nat} {s : State} {ws : List InstrWord} (rest : List Command)
    (h : s.captured = true ∨ ws.length ≤ cap) :
    serve cap (.step ws) { s with pending := rest } = stepEntry { s with
      pending := rest
      captured := true
      prog := if s.captured then s.prog else ws
      cursor := if s.captured then s.cursor else 0 } :=
  serveStep_eq_stepEntry h

/-! ### One word under a command -/

/-- A valid word has its reference effect on the bank and writes nothing else (R56). -/
theorem execute_of_valid {w : InstrWord} (h : isValidWord w = true) (s : State) :
    execute w s = .next { s with raised := none, regs := wordEffect s.regs w } := by
  obtain ⟨op, ho⟩ := (isValidWord_iff w).1 h
  rw [execute_of_op ho, ← operate_regs_of_op ho]
  rfl

/-- A STEP at a valid word (R69) takes its effect and moves the cursor past it. -/
theorem stepEntry_effect {s : State} {w : InstrWord} (hw : s.prog[s.cursor]? = some w) (h : isValidWord w = true) :
    stepEntry s = .next (respond .executed { s with regs := wordEffect s.regs w, cursor := s.cursor + 1 }) := by
  obtain ⟨op, ho⟩ := (isValidWord_iff w).1 h
  rw [stepEntry_valid hw ho, ← operate_regs_of_op ho]
  rfl

/-- The words up to and with entry `k` have the effect of entry `k` on that of the words before it (20_memory.md R32). -/
theorem regsAfter_take_succ {ws : List InstrWord} {k : Nat} {w : InstrWord} (h : ws[k]? = some w) (b : RegBank) :
    regsAfter (ws.take (k + 1)) b = wordEffect (regsAfter (ws.take k) b) w := by
  simp [regsAfter, List.take_add_one, h]

/-- The words up to and with entry `k` are valid if those before it are and it is. -/
theorem valid_take_succ {ws : List InstrWord} {k : Nat} {w : InstrWord} (h : ws[k]? = some w)
    (hw : isValidWord w = true) (hv : ∀ v ∈ ws.take k, isValidWord v = true) :
    ∀ v ∈ ws.take (k + 1), isValidWord v = true := by
  intro v hmem
  rw [List.take_add_one, h, Option.toList_some, List.mem_append, List.mem_singleton] at hmem
  rcases hmem with hmem | rfl
  · exact hv v hmem
  · exact hw

/-- STEP runs the entry at the cursor by `exec` of what it decodes to. -/
theorem stepEntry_runs_decoded {s : State} {w : InstrWord} (hw : s.prog[s.cursor]? = some w) :
    ∃ t, exec (decode w) { s with raised := none } = .next t ∧
      stepEntry s = match t.raised with
        | some c => .next { t with raised := none, response := some (.stepFault c) }
        | none => .next { t with cursor := t.cursor + 1, response := some .executed } := by
  cases hv : isValidWord w with
  | true => exact ⟨_, execute_of_valid hv s, stepEntry_effect hw hv⟩
  | false => exact ⟨_, execute_of_illegal (opField_of_invalid hv) s, stepEntry_illegal hw (opField_of_invalid hv)⟩

/-- A number the opcode table's decoder accepts is a word, and that word decodes to the same instruction. -/
theorem decode_tableWord {nbits w : Nat} {i : Instr} (h : decodeTableWord nbits w = some i) :
    decode (tableWord nbits w) = i := by
  cases hw : isWordValue (w % 2 ^ nbits) with
  | true => exact Option.some.inj ((decodeTableWord_of_isWordValue hw).symm.trans h)
  | false => simp [decodeTableWord, decodeNumber, hw] at h

/-! ### The hex digits of a display (R71) -/

/-- Every digit a display writes is an upper-case hex digit. -/
theorem hexChar_mem_upper {k : Nat} (h : k < 16) : hexChar k ∈ "0123456789ABCDEF".toList := by
  revert k
  decide

/-- The four digits of a value read back as that value. -/
theorem hexValue_hex4 (v : Word) : hexValue (hex4 v) = v.toNat := by
  have hdigit (n : Nat) : hexDigit (hexChar (n % 16)) = some (n % 16) := hexDigit_hexChar (Nat.mod_lt n (by decide))
  have hlt : v.toNat < 65536 := v.isLt
  simp only [hexValue, hex4, List.foldl, hdigit, Option.getD_some]
  omega

/-! ### The statements -/

/-- Settles O2: the served RESET leaves the power-on state, and serving another one writes the same values again. -/
theorem resetIsTotalAndIdempotent : Obligations.ResetIsTotalAndIdempotent :=
  fun cap _ _ hp => ⟨_, serves_reset cap hp, ⟨rfl, rfl, rfl, rfl⟩, rfl, rfl, rfl, rfl, rfl⟩

/-- Settles O12: EXEC's answer for a valid and for an ILLEGAL word. -/
theorem execCommandRunsOneWord : Obligations.ExecCommandRunsOneWord := fun _ _ _ _ hp =>
  ⟨fun hv => ⟨_, serves_of_serve hp (serveExec_valid hv _) rfl, rfl, rfl, rfl, rfl⟩,
    fun hv => ⟨_, serves_of_serve hp (serveExec_illegal hv _) rfl, rfl, rfl, rfl, rfl⟩⟩

/-- Settles O13: RUN's answer for a valid program and for one whose first ILLEGAL entry is `k`. -/
theorem runCommandStopsAtFirstFault : Obligations.RunCommandStopsAtFirstFault := fun _ _ _ _ hp hfits =>
  ⟨fun hv => ⟨_, serves_of_serve hp (serveRun_of_valid hfits hv _) rfl, rfl, rfl, rfl, rfl⟩,
    fun _ _ hk hw hv => ⟨_, serves_of_serve hp (serveRun_of_firstIllegal hfits hk hw hv _) rfl, rfl, rfl, rfl, rfl⟩⟩

/-- Settles O14: after the capture, STEP is past the end, at an ILLEGAL entry or at a valid one. -/
theorem stepCommandExecutesAtMostOneEntry : Obligations.StepCommandExecutesAtMostOneEntry := by
  intro cap s ws rest hp hfits prog cursor
  have hserve := serve_step (s := s) rest (.inr hfits)
  refine ⟨fun hpast => ?_, fun w hw hv => ?_, fun w hw hv => ?_⟩
  · exact ⟨_, serves_of_serve hp (hserve.trans (stepEntry_past hpast)) rfl, rfl, rfl, rfl, rfl⟩
  · exact ⟨_, serves_of_serve hp (hserve.trans (stepEntry_illegal hw (opField_of_invalid hv))) rfl, rfl, rfl, rfl, rfl⟩
  · exact ⟨_, serves_of_serve hp (hserve.trans (stepEntry_effect hw hv)) rfl, rfl, rfl, rfl, rfl⟩

/-- Settles O11: one row of the table for each of the five commands, from what each command answers. -/
theorem commandsRespondAsTabled : Obligations.CommandsRespondAsTabled := by
  intro cap s c rest hp hspec
  cases c with
  | exec w =>
    cases hv : isValidWord w with
    | true => exact ⟨_, _, serves_of_serve hp (serveExec_valid hv _) rfl, .inl rfl, rfl, rfl, rfl⟩
    | false => exact ⟨_, _, serves_of_serve hp (serveExec_illegal hv _) rfl, .inr ⟨_, rfl⟩, rfl, rfl, rfl⟩
  | run ws =>
    rcases serveRun_cases (of_decide_eq_true hspec) { s with pending := rest } with
      ⟨-, hrun⟩ | ⟨pre, w, post, -, -, -, hrun⟩
    · exact ⟨_, _, serves_of_serve hp hrun rfl, .inl rfl, rfl, rfl, rfl⟩
    · exact ⟨_, _, serves_of_serve hp hrun rfl, .inr ⟨_, _, rfl⟩, rfl, rfl, rfl⟩
  | step ws =>
    have hserve := serve_step (s := s) rest (.inr (of_decide_eq_true hspec))
    rcases stepEntry_cases _ with ⟨-, he⟩ | ⟨w, -, -, he⟩ | ⟨w, -, -, he⟩
    · exact ⟨_, _, serves_of_serve hp (hserve.trans he) rfl, .inr (.inl rfl)⟩
    · exact ⟨_, _, serves_of_serve hp (hserve.trans he) rfl, .inl rfl⟩
    · exact ⟨_, _, serves_of_serve hp (hserve.trans he) rfl, .inr (.inr ⟨_, rfl⟩)⟩
  | reset => exact ⟨_, _, serves_reset cap hp, rfl⟩
  | snapshot => exact ⟨_, _, serves_snapshot cap hp, rfl, rfl, rfl, rfl, rfl⟩

/-- Settles O15: the served SNAPSHOT writes only its response, and the display writes four upper-case hex digits. -/
theorem snapshotReadsTheBank : Obligations.SnapshotReadsTheBank := by
  refine ⟨fun cap s rest hp => ⟨_, serves_snapshot cap hp, rfl, rfl, rfl, rfl⟩, fun a b c d => rfl,
    fun v => ⟨rfl, fun c hc => ?_, hexValue_hex4 v⟩, by decide⟩
  simp only [hex4, List.mem_cons, List.not_mem_nil, or_false] at hc
  rcases hc with rfl | rfl | rfl | rfl <;> exact hexChar_mem_upper (Nat.mod_lt _ (by decide))

/-- Settles O16: R72's table is how the text operations and their results are defined. -/
theorem textOperationsAreCommands : Obligations.TextOperationsAreCommands :=
  ⟨fun _ => rfl, fun _ => rfl, fun _ => rfl, rfl, rfl, rfl, fun _ => rfl, rfl, fun _ _ => rfl, rfl, rfl, fun _ => rfl⟩

/-- Settles O31: under each of the three commands the word runs by `execute`, which is `exec` of the decoded word. -/
theorem stepRunsDecodedWord : Obligations.StepRunsDecodedWord := by
  refine ⟨fun _ => rfl, ?_, ?_, ?_⟩
  · rintro cap s ws rest w _ hp hfits prog cursor hw rfl -
    obtain ⟨t, hexec, hentry⟩ := stepEntry_runs_decoded
      (s := { s with pending := rest, captured := true, prog := prog, cursor := cursor }) hw
    exact ⟨t, hexec, (stepWith_pending cap hp).trans ((serve_step rest hfits).trans hentry)⟩
  · rintro cap s ws rest k w _ hp hfits hk hbefore rfl -
    cases hv : isValidWord w with
    | true =>
      refine ⟨_, execute_of_valid hv { s with pending := rest, regs := regsAfter (ws.take k) s.regs }, ?_⟩
      have hrun := serveRun_of_valid ((List.length_take_le' _ _).trans hfits) (valid_take_succ hk hv hbefore)
        { s with pending := rest }
      rw [regsAfter_take_succ hk] at hrun
      exact hrun
    | false =>
      exact ⟨_, execute_of_illegal (opField_of_invalid hv) { s with pending := rest, regs := regsAfter (ws.take k) s.regs },
        (stepWith_pending cap hp).trans (serveRun_of_firstIllegal hfits hk hv hbefore _)⟩
  · rintro cap s rest w _ hp rfl -
    cases hv : isValidWord w with
    | true =>
      exact ⟨_, execute_of_valid hv { s with pending := rest }, (stepWith_pending cap hp).trans (serveExec_valid hv _)⟩
    | false =>
      exact ⟨_, execute_of_illegal (opField_of_invalid hv) { s with pending := rest },
        (stepWith_pending cap hp).trans (serveExec_illegal hv _)⟩

/-- Settles O32: the placed word is the entry at the cursor, and the STEP presented with it runs that entry. -/
theorem placedWordRunsNext : Obligations.PlacedWordRunsNext := by
  rintro s nbits w i hi
  obtain rfl := decode_tableWord hi
  obtain ⟨t, hexec, hentry⟩ := stepEntry_runs_decoded
    (s := { s.withFetchWord nbits w with pending := s.pending }) (placeEntry_getElem? s.prog s.cursor _)
  have hserve := serveStep_of_captured Config.progCap [] { s.withFetchWord nbits w with pending := s.pending } rfl
  exact ⟨t, hexec, hserve.trans hentry, rfl, rfl⟩

end Sys2Proof.Machine
end

section
/-!
SUPPORT. Several steps in a row: STEPs at an ILLEGAL entry, STEPs through a valid program, and EXECs of words one after
another (45_host_interface.md R67 to R70, 60_exceptions.md R85), each by induction on the pending commands.
-/

namespace Sys2Proof.Machine

/-! ### Runs of steps -/

/-- Several steps begin with the first one. -/
theorem stepsWith_succ_of_next {cap n : Nat} {s t : State} (h : stepWith cap s = .next t) :
    stepsWith cap (n + 1) s = stepsWith cap n t := by
  rw [stepsWith, h]

/-- Several steps end with the last one. -/
theorem stepsWith_succ_last {cap n : Nat} {s t : State} (h : stepsWith cap n s = .next t) :
    stepsWith cap (n + 1) s = stepWith cap t := by
  induction n generalizing s with
  | zero =>
    obtain rfl := Host.Outcome.next.inj h
    rw [stepsWith]
    cases stepWith cap s <;> rfl
  | succ n ih =>
    rw [stepsWith] at h ⊢
    cases hs : stepWith cap s with
    | next u =>
      rw [hs] at h
      exact ih h
    | fault r => simp [hs] at h
    | refused r => simp [hs] at h

/-! ### STEPs at an ILLEGAL entry -/

/-- A STEP at an ILLEGAL entry of the captured program reports its fault and writes nothing else (R69). -/
theorem stepWith_at_illegal (cap : Nat) {s : State} {w : InstrWord} {ws : List InstrWord} {rest : List Command}
    (hcap : s.captured = true) (hw : s.prog[s.cursor]? = some w) (hv : isValidWord w = false)
    (hp : s.pending = .step ws :: rest) :
    stepWith cap s = .next (respond (.stepFault (causeOf (causeField w))) { s with pending := rest }) :=
  calc stepWith cap s = serveStep cap ws { s with pending := rest } := stepWith_pending cap hp
    _ = stepEntry { s with pending := rest } := serveStep_of_captured cap ws _ hcap
    _ = _ := stepEntry_illegal hw (opField_of_invalid hv)

/-- STEPs at an ILLEGAL entry of the captured program, whatever programs they carry, all end in the same fault. -/
theorem stepsWith_at_illegal (cap : Nat) {s : State} {w : InstrWord} (ws : List InstrWord)
    (progs : List (List InstrWord)) {after : List Command} (hcap : s.captured = true) (hw : s.prog[s.cursor]? = some w)
    (hv : isValidWord w = false) (hp : s.pending = .step ws :: (progs.map .step ++ after)) :
    stepsWith cap (progs.length + 1) s =
      .next (respond (.stepFault (causeOf (causeField w))) { s with pending := after }) := by
  induction progs generalizing s ws with
  | nil => exact stepsWith_succ_of_next (stepWith_at_illegal cap hcap hw hv hp)
  | cons vs progs ih =>
    exact (stepsWith_succ_of_next (stepWith_at_illegal cap hcap hw hv hp)).trans (ih (s := respond _ _) vs hcap hw rfl)

/-! ### STEPs through a valid program -/

/-- Where stepping through the captured program `ws` from the bank `b` stands after `n` STEPs: the first `n` lines have
executed, and the cursor is past them (60_exceptions.md R85). -/
structure AfterLines (ws : List InstrWord) (b : RegBank) (n : Nat) (s : State) : Prop where
  captured : s.captured = true
  prog : s.prog = ws
  cursor : s.cursor = min n ws.length
  regs : s.regs = regsAfter (ws.take n) b

/-- At the capture no line has executed. -/
theorem afterLines_capture (ws : List InstrWord) (s : State) : AfterLines ws s.regs 0 (capture ws s) :=
  ⟨rfl, rfl, (Nat.zero_min _).symm, rfl⟩

/-- The next STEP executes the next line, or there is none and it reports Complete. -/
theorem stepEntry_afterLines {ws : List InstrWord} {b : RegBank} {n : Nat} {s : State}
    (hv : ∀ w ∈ ws, isValidWord w = true) (h : AfterLines ws b n s) :
    ∃ t, stepEntry s = .next t ∧ AfterLines ws b (n + 1) t ∧ t.pending = s.pending ∧
      t.response = some (if n + 1 ≤ ws.length then .executed else .complete) := by
  obtain ⟨hcap, rfl, hcursor, hregs⟩ := h
  rcases Nat.lt_or_ge n s.prog.length with hlt | hge
  · rw [Nat.min_eq_left hlt.le] at hcursor
    have hget : s.prog[n]? = some s.prog[n] := List.getElem?_eq_getElem hlt
    refine ⟨_, stepEntry_effect (hcursor ▸ hget) (hv _ (List.getElem_mem hlt)), ⟨hcap, rfl, ?_, ?_⟩, rfl, ?_⟩
    · simp [hcursor, Nat.min_eq_left (Nat.succ_le_of_lt hlt)]
    · simp [hregs, regsAfter_take_succ hget]
    · simp [Nat.succ_le_of_lt hlt]
  · rw [Nat.min_eq_right hge] at hcursor
    refine ⟨_, stepEntry_past hcursor.ge, ⟨hcap, rfl, ?_, ?_⟩, rfl, ?_⟩
    · simp [hcursor, Nat.min_eq_right (Nat.le_succ_of_le hge)]
    · simp [hregs, List.take_of_length_le hge, List.take_of_length_le (Nat.le_succ_of_le hge)]
    · simp [Nat.not_le.2 (Nat.lt_succ_of_le hge)]

/-- Stepping a valid program that fits from a state with nothing captured, one STEP and then `progs.length` more. -/
theorem stepsWith_afterLines {cap : Nat} {s : State} {ws : List InstrWord} (hcap : s.captured = false)
    (hfits : ws.length ≤ cap) (hv : ∀ w ∈ ws, isValidWord w = true) (progs : List (List InstrWord))
    {rest : List Command} (hp : s.pending = .step ws :: (progs.map .step ++ rest)) :
    ∃ t, stepsWith cap (progs.length + 1) s = .next t ∧ AfterLines ws s.regs (progs.length + 1) t ∧ t.pending = rest ∧
      t.response = some (if progs.length + 1 ≤ ws.length then .executed else .complete) := by
  induction progs using List.reverseRecOn generalizing rest with
  | nil =>
    obtain ⟨t, hentry, ht⟩ := stepEntry_afterLines hv (afterLines_capture ws { s with pending := rest })
    refine ⟨t, stepsWith_succ_of_next ?_, ht⟩
    calc stepWith cap s = serveStep cap ws { s with pending := rest } := stepWith_pending cap hp
      _ = stepEntry (capture ws { s with pending := rest }) := serveStep_of_not_captured hfits _ hcap
      _ = .next t := hentry
  | append_singleton progs vs ih =>
    obtain ⟨u, hsteps, ⟨hcaptured, hprog, hcursor, hregs⟩, hpending, -⟩ :=
      ih (rest := .step vs :: rest) (by simpa using hp)
    obtain ⟨t, hentry, ht⟩ :=
      stepEntry_afterLines (s := { u with pending := rest }) hv ⟨hcaptured, hprog, hcursor, hregs⟩
    rw [List.length_append, List.length_singleton]
    refine ⟨t, ?_, ht⟩
    calc stepsWith cap (progs.length + 1 + 1) s = stepWith cap u := stepsWith_succ_last hsteps
      _ = serveStep cap vs { u with pending := rest } := stepWith_pending cap hpending
      _ = stepEntry { u with pending := rest } := serveStep_of_captured cap vs _ hcaptured
      _ = .next t := hentry

/-! ### EXECs one after another -/

/-- EXECs of valid words have the effects of the words in order, and touch neither the session nor later commands. -/
theorem stepsWith_execs (cap : Nat) {s : State} (ws : List InstrWord) {after : List Command}
    (hv : ∀ w ∈ ws, isValidWord w = true) (hp : s.pending = ws.map .exec ++ after) :
    ∃ u, stepsWith cap ws.length s = .next u ∧ u.regs = regsAfter ws s.regs ∧ SameSession s u ∧ u.pending = after := by
  induction ws generalizing s with
  | nil => exact ⟨s, rfl, rfl, ⟨rfl, rfl, rfl⟩, hp⟩
  | cons w ws ih =>
    have hstep : stepWith cap s = _ :=
      (stepWith_pending cap hp).trans (serveExec_valid (hv w List.mem_cons_self) _)
    rw [List.length_cons, stepsWith_succ_of_next hstep]
    exact ih (s := respond _ _) (fun v hmem => hv v (List.mem_cons_of_mem w hmem)) rfl

/-! ### The statements -/

/-- Settles O17: the STEPs before the RESET all fault at the cursor's entry, and the RESET leaves the power-on state. -/
theorem stepFaultRepeatsUntilReset : Obligations.StepFaultRepeatsUntilReset := by
  intro cap s w progs rest hcap hw hv hne hp
  obtain ⟨ws, more, rfl⟩ := List.exists_cons_of_ne_nil hne
  exact ⟨_, _, stepsWith_at_illegal cap ws more hcap hw hv hp, ⟨rfl, rfl, rfl, rfl⟩, rfl, rfl, serves_reset cap rfl,
    rfl, rfl, rfl, rfl⟩

/-- Settles O18, by induction on the number of STEPs (`stepsWith_afterLines`). -/
theorem steppingRunsTheProgram : Obligations.SteppingRunsTheProgram := by
  intro cap s ws progs rest hcap hfits hv hp
  obtain ⟨t, hsteps, ⟨hcaptured, hprog, hcursor, hregs⟩, hpending, hresponse⟩ :=
    stepsWith_afterLines hcap hfits hv progs hp
  exact ⟨t, hsteps, hpending, hregs, hcursor, hcaptured, hprog, hresponse⟩

/-- Settles O19: RUN and the EXECs of its words both leave the effects of the valid words up to the first fault. -/
theorem runIsExecSequence : Obligations.RunIsExecSequence := by
  refine ⟨fun cap s ws hfits hv => ?_, fun cap s pre w post hfits hv hw => ?_⟩
  · obtain ⟨u, hexecs, hregs, hsession, -⟩ :=
      stepsWith_execs cap (s := { s with pending := ws.map .exec }) ws hv (List.append_nil _).symm
    exact ⟨_, u, serveRun_of_valid hfits hv _, hexecs, ⟨hregs, hsession⟩, rfl⟩
  · obtain ⟨u, hexecs, hregs, hsession, hpending⟩ :=
      stepsWith_execs cap (s := { s with pending := (pre ++ w :: post).map .exec }) pre hv List.map_append
    have hlast : stepWith cap u = _ := (stepWith_pending cap hpending).trans (serveExec_illegal hw _)
    have hrun := serveRun_of_firstIllegal hfits (k := pre.length) (by simp) hw (by simpa using hv) { s with pending := [] }
    rw [List.take_left] at hrun
    exact ⟨_, _, hrun, (stepsWith_succ_last hexecs).trans hlast, ⟨hregs, hsession⟩, rfl, rfl⟩

end Sys2Proof.Machine
end

section
/-!
SUPPORT. Faults (60_exceptions.md R75, R77, R78): the causes and their codes, the exact state a fault leaves, and the
order in which the defects of a line are reported.
-/

namespace Sys2Proof.Machine

/-- The code of a cause, as a cause field, names that cause (R60, R75). -/
@[simp] theorem causeOf_code (c : Cause) : causeOf c.code = c := by
  cases c <;> rfl

/-- RUN (R68) of valid words and then an ILLEGAL one: the effects of the words before it stay, and nothing after it is
looked at (R78). -/
theorem serveRun_of_illegal {cap : Nat} {pre post : List InstrWord} {w : InstrWord}
    (hfits : (pre ++ w :: post).length ≤ cap) (hv : ∀ v ∈ pre, isValidWord v = true) (hw : isValidWord w = false)
    (s : State) :
    serveRun cap (pre ++ w :: post) s =
      .next (respond (.runFault pre.length (causeOf (causeField w))) { s with regs := regsAfter pre s.regs }) := by
  have hrun := serveRun_of_firstIllegal hfits (k := pre.length) (by simp) hw (by simpa using hv) s
  rwa [List.take_left] at hrun

/-- R49: a source token that is a hex immediate or a register name parses. -/
theorem exists_parseSource_ok {t : Text}
    (h : (∃ x, t = '#' :: x ∧ isHexDigitString x = true) ∨ ∃ rs, t = regName rs) : ∃ src, parseSource t = .ok src := by
  rcases h with ⟨x, rfl, hx⟩ | ⟨rs, rfl⟩
  · exact ⟨_, parseSource_immediate hx⟩
  · exact ⟨_, parseSource_regName rs⟩

/-! ### The statements -/

/-- Settles O21: the answers of EXEC, STEP and RUN at an ILLEGAL word, each with the state it leaves. -/
theorem faultsArePrecise : Obligations.FaultsArePrecise := fun cap _ _ _ hw =>
  ⟨fun hp => (stepWith_pending cap hp).trans (serveExec_illegal hw _),
    fun _ hp _ hcap hentry => stepWith_at_illegal cap hcap hentry hw hp,
    fun _ _ hp hfits hv => (stepWith_pending cap hp).trans (serveRun_of_illegal hfits hv hw _)⟩

/-- Settles O20: cause by cause, over the five constructors of `Cause`. -/
theorem faultCodesAreSpecs : Obligations.FaultCodesAreSpecs := by
  refine ⟨rfl, rfl, rfl, rfl, rfl, fun c => ?_, causeOf_code, fun c => ?_⟩
  · cases c <;> simp
  · cases c <;> decide

/-- Settles O25: a step with no command pending serves none. -/
theorem idleBlockKeepsItsState : Obligations.IdleBlockKeepsItsState := fun cap _ => stepWith_idle cap

/-- Settles O50: the ends of a line in the order of R77, from those of its destination and its source token. -/
theorem firstDefectIsReported : Obligations.FirstDefectIsReported := by
  refine ⟨fun _ => assembleLine_of_short, fun line m d t rest htok => ⟨assembleLine_of_unknown_mnemonic htok,
    fun op hm => ?_⟩, by decide, by decide, by decide, by decide⟩
  obtain ⟨hdest, -⟩ := destinationToken
  obtain ⟨himmediate, hname, -⟩ := hdest line m d t rest op htok hm
  refine ⟨himmediate, hname, ?_⟩
  rintro rd rfl
  obtain ⟨-, hbadImmediate, -, hbadName⟩ := sourceToken line m rd t rest op htok hm
  refine ⟨hbadImmediate, hbadName, fun hgood => ?_⟩
  obtain ⟨src, hsrc⟩ := exists_parseSource_ok hgood
  rw [assembleLine_of_source_ok htok hm (parseDest_regName rd) hsrc, opField_encodeParts]

end Sys2Proof.Machine
end

section
/-!
SUPPORT. Decoder and encoder against each other and against the opcode table (30_encoding.md R36 to R43): each undoes the
other up to the ignored fields, and a word has the bits of its own instruction's row alone.
-/

namespace Sys2Proof.Machine

/-! ### Decode of encode, encode of decode -/

@[simp] theorem decode_encode (i : Instr) : decode (encode i) = i := by
  rcases i.eq_ofParts_or_illegal with ⟨op, rd, src, rfl⟩ | ⟨c, rfl⟩
  · rw [encode_ofParts, decode_encodeParts]
  · rw [encode, decode_of_illegal (opField_encodeIllegal c), causeField_encodeIllegal]

/-- R40: the canonical word of an operation's word is the encoder's word of what it reads from it. -/
theorem canonicalWord_of_op {w : InstrWord} {op : Op} (h : opField w = op.code) :
    canonicalWord w = encodeParts op (Reg.ofIndex (rdField w)) (sourceOf w) := by
  have hne : opField w ≠ 0b11#2 := h ▸ op.code_ne_illegal
  rcases sField_cases w with hs | hs
  · rw [canonicalWord_of_imm hne hs]
    simp [encodeParts, sourceOf, hs, h]
  · rw [canonicalWord_of_reg hne hs]
    simp [encodeParts, sourceOf, hs, h]

theorem encode_decode (w : InstrWord) : encode (decode w) = canonicalWord w := by
  rcases Op.ofCode_cases (opField w) with ⟨op, -, h⟩ | ⟨-, h⟩
  · rw [decode_of_op h, encode_ofParts, canonicalWord_of_op h]
  · rw [decode_of_illegal h, encode, canonicalWord_of_illegal h]

theorem canonicalWord_encode (i : Instr) : canonicalWord (encode i) = encode i := by
  rw [← encode_decode, decode_encode]

/-- R40: clearing the ignored fields does not change what a word decodes to. -/
@[simp] theorem decode_canonicalWord (w : InstrWord) : decode (canonicalWord w) = decode w := by
  rw [← encode_decode, decode_encode]

theorem decode_eq_iff (w v : InstrWord) : decode w = decode v ↔ canonicalWord w = canonicalWord v := by
  refine ⟨fun h => ?_, fun h => ?_⟩
  · rw [← encode_decode, h, encode_decode]
  · rw [← decode_canonicalWord, h, decode_canonicalWord]

/-! ### The rows of the opcode table -/

theorem row_mem_opcodeTable (i : Instr) : i.row ∈ opcodeTable := by
  cases i <;> simp [Instr.row, opcodeTable]

/-- The encoding of every instruction has its row's bits: the laws of Laws/PerInstr.lean together. -/
theorem row_has_encode (i : Instr) : i.row.has (encode i) = true := by
  cases i with
  | movRR rd rs => exact Laws.EncodingHasRowBits.movRR rd rs
  | movRI rd v => exact Laws.EncodingHasRowBits.movRI rd v
  | addRR rd rs => exact Laws.EncodingHasRowBits.addRR rd rs
  | addRI rd v => exact Laws.EncodingHasRowBits.addRI rd v
  | subRR rd rs => exact Laws.EncodingHasRowBits.subRR rd rs
  | subRI rd v => exact Laws.EncodingHasRowBits.subRI rd v
  | illegal c => exact Laws.EncodingHasRowBits.illegal c

/-- The rows of MOV, ADD and SUB fix the opcode and the select bit. -/
theorem row_mask_ofParts (op : Op) (rd : Reg) (src : Source) : (Instr.ofParts op rd src).row.mask = 0xC80000#24 := by
  cases op <;> cases src <;> rfl

/-- A row fixes no ignored field of its instruction's words. -/
theorem canonicalWord_and_row_mask (w : InstrWord) :
    canonicalWord w &&& (decode w).row.mask = w &&& (decode w).row.mask := by
  rcases Op.ofCode_cases (opField w) with ⟨op, -, h⟩ | ⟨-, h⟩
  · have hne : opField w ≠ 0b11#2 := h ▸ op.code_ne_illegal
    rw [decode_of_op h, row_mask_ofParts, canonicalWord, if_neg hne]
    split
    · exact BitVec.and_assoc w 0xF8FFFF#24 0xC80000#24
    · exact BitVec.and_assoc w 0xFE0000#24 0xC80000#24
  · rw [decode_of_illegal h, canonicalWord, if_pos h]
    exact BitVec.and_assoc w 0xC00007#24 0xC00000#24

theorem row_decode_has (w : InstrWord) : (decode w).row.has w = true := by
  have hcanonical := row_has_encode (decode w)
  rwa [encode_decode, TableRow.has, canonicalWord_and_row_mask] at hcanonical

/-- Two rows that one word has agree where both fix a bit. -/
theorem bits_agree_of_has {a b : TableRow} {w : InstrWord} (ha : a.has w = true) (hb : b.has w = true) :
    a.bits &&& b.mask = b.bits &&& a.mask := by
  rw [← eq_of_beq ha, ← eq_of_beq hb, BitVec.and_assoc, BitVec.and_assoc, BitVec.and_comm a.mask]

/-- Two different rows of the table disagree on a bit that both fix. -/
theorem opcodeTable_disjoint : ∀ a ∈ opcodeTable, ∀ b ∈ opcodeTable, a.bits &&& b.mask = b.bits &&& a.mask → a = b := by
  decide

/-! ### Numbers taken as words -/

theorem decodeNumber_of_wide {n : Nat} (h : 2 ^ 24 ≤ n) : decodeNumber n = .error .widerThanAWord := by
  simpa [decodeNumber, isWordValue] using h

theorem tableWord_of_isWordValue {n : Nat} (h : n < 2 ^ 24) : tableWord 24 n = BitVec.ofNat 24 n := by
  rw [tableWord, Nat.mod_eq_of_lt h]

/-! ### The statements -/

/-- Settles O34: the encoder's word of each operation and of each cause decodes to it, field by field. -/
theorem decodeOfEncode : Obligations.DecodeOfEncode := fun i _ => decode_encode i

/-- Settles O35: encode of decode is the canonical word, and decode of encode gives the other two parts from it. -/
theorem encodeOfDecodeIsCanonical : Obligations.EncodeOfDecodeIsCanonical :=
  ⟨encode_decode, canonicalWord_encode, decode_eq_iff⟩

/-- Settles O39: a word has the row of its instruction, and no other, since the rows are disjoint. -/
theorem decoderFollowsOpcodeTable : Obligations.DecoderFollowsOpcodeTable := by
  refine ⟨fun w => row_mem_opcodeTable (decode w), fun w r hr => ⟨fun hhas => ?_, ?_⟩⟩
  · exact opcodeTable_disjoint r hr _ (row_mem_opcodeTable (decode w)) (bits_agree_of_has hhas (row_decode_has w))
  · rintro rfl
    exact row_decode_has w

/-- Settles O40: one word for each row, by evaluation of the decoder. -/
theorem sampleWordsDecode : Obligations.SampleWordsDecode := by
  refine ⟨?_, ?_, ?_, ?_, ?_, ?_, ?_⟩ <;> decide

/-- Settles O41: the bound of `isWordValue` on both sides. -/
theorem tableNumbersDecodeOrAreRejected : Obligations.TableNumbersDecodeOrAreRejected := by
  refine ⟨fun w hw => ?_, fun n => decodeNumber_of_wide⟩
  have hword : isWordValue (w % 2 ^ 24) = true := decide_eq_true (Nat.mod_lt w (by decide))
  rw [decodeTableWord_of_isWordValue hword, tableWord_of_isWordValue hw]

end Sys2Proof.Machine
end

section
/-!
SUPPORT. Canonical spellings (30_encoding.md R54): the three tokens of an operation's spelling, and what the assembler
reads from each of them.
-/

namespace Sys2Proof.Machine

/-! ### Tokens as they stand in a spelling -/

/-- A text that is one token (R45): not empty, and without whitespace. -/
def IsToken (t : Text) : Prop := t ≠ [] ∧ ∀ c ∈ t, isSpace c = false

theorem tokens_of_isToken {t : Text} (h : IsToken t) : tokens t = [t] := by
  obtain ⟨hne, hspace⟩ := h
  simpa using tokens_run_append (post := []) hne hspace rfl

theorem tokens_isToken_space {t : Text} (h : IsToken t) (post : Text) : tokens (t ++ ' ' :: post) = t :: tokens post := by
  obtain ⟨hne, hspace⟩ := h
  rw [tokens_run_append hne hspace rfl, tokens_of_space rfl]

theorem isToken_mnemonic (op : Op) : IsToken (mnemonic op) := by cases op <;> simp [IsToken, mnemonic, isSpace]

theorem isToken_regName (r : Reg) : IsToken (regName r) := by cases r <;> simp [IsToken, regName, isSpace]

/-- Every whitespace character is below the digits, which are below the letters. -/
theorem hexDigit_of_isSpace {c : Char} (h : isSpace c = true) : hexDigit c = none := by
  have hsmall : c.toNat ≤ 0x20 := by
    simp only [isSpace, Bool.or_eq_true, beq_iff_eq] at h
    omega
  rw [hexDigit, if_neg (by omega), if_neg (by omega), if_neg (by omega)]

theorem isSpace_of_hexDigit {c : Char} (h : (hexDigit c).isSome = true) : isSpace c = false := by
  by_contra hspace
  simp [hexDigit_of_isSpace (Bool.not_eq_false _ ▸ hspace)] at h

theorem isHexDigitString_hex4 (v : Word) : isHexDigitString (hex4 v) = true := by
  have hdigit (n : Nat) : hexDigit (hexChar (n % 16)) = some (n % 16) := hexDigit_hexChar (Nat.mod_lt n (by decide))
  simp [isHexDigitString, hex4, hdigit]

theorem isToken_spellSource (src : Source) : IsToken (spellSource src) := by
  cases src with
  | reg rs => exact isToken_regName rs
  | imm v =>
    obtain ⟨-, hdigits⟩ := (isHexDigitString_iff _).1 (isHexDigitString_hex4 v)
    refine ⟨List.cons_ne_nil _ _, fun c hc => ?_⟩
    rcases List.mem_cons.1 hc with rfl | hc
    · rfl
    · exact isSpace_of_hexDigit (hdigits c hc)

/-! ### Reading a spelling back -/

/-- The spelling of a source operand is read back as that operand (R49, R50). -/
@[simp] theorem parseSource_spellSource (src : Source) : parseSource (spellSource src) = .ok src := by
  cases src with
  | reg rs => exact parseSource_regName rs
  | imm v => rw [spellSource, parseSource_immediate (isHexDigitString_hex4 v), hexValue_hex4, BitVec.ofNat_toNat,
      BitVec.setWidth_eq]

theorem spell_of_op {w : InstrWord} {op : Op} (h : opField w = op.code) :
    spell w = mnemonic op ++ ' ' :: (regName (Reg.ofIndex (rdField w)) ++ ' ' :: spellSource (sourceOf w)) := by
  simp [spell, h]

theorem tokens_spell_of_op {w : InstrWord} {op : Op} (h : opField w = op.code) :
    tokens (spell w) = [mnemonic op, regName (Reg.ofIndex (rdField w)), spellSource (sourceOf w)] := by
  rw [spell_of_op h, tokens_isToken_space (isToken_mnemonic op), tokens_isToken_space (isToken_regName _),
    tokens_of_isToken (isToken_spellSource _)]

/-- Assembling the spelling of an operation's word gives its canonical word. -/
theorem assembleLine_spell {w : InstrWord} {op : Op} (h : opField w = op.code) :
    assembleLine (spell w) = canonicalWord w := by
  rw [assembleLine_of_source_ok (tokens_spell_of_op h) (asciiUpper_mnemonic op) (parseDest_regName _)
    (parseSource_spellSource _), canonicalWord_of_op h]

/-- Settles O51: the spelling's three tokens are read back as the parts the word was spelled from. -/
theorem assembleOfSpell : Obligations.AssembleOfSpell := by
  intro w hcanonical hop
  obtain ⟨op, h⟩ := exists_op_of_opField_ne_illegal hop
  rw [assembleLine_spell h, hcanonical]

end Sys2Proof.Machine
end

section
/-!
SUPPORT. Every step of a session (10_state.md R18 to R24, 20_memory.md R26): the invariant, where the model stops, and
what a step does not read, each said per command and then of the step.
-/

namespace Sys2Proof.Machine

/-! ### The invariant -/

/-- A response keeps the invariant, whatever of the bank the command wrote before it. -/
theorem State.Inv.respond {cap : Nat} {s t : State} {r : Response} (h : s.Inv cap)
    (hsame : SameSession s t) :
    (respond r t).Inv cap := by
  obtain ⟨hcursor, hcaptured, hprog⟩ := hsame
  refine ⟨?_, fun huncaptured => ?_, ?_, rfl⟩
  · simpa [hcursor, hprog] using h.cursor_le
  · simpa [hcursor, hprog] using h.uncaptured (hcaptured.symm.trans huncaptured)
  · simpa [hprog] using h.fits

/-- The invariant does not speak of the pending commands. -/
theorem State.Inv.with_pending {cap : Nat} {s : State} (h : s.Inv cap) (cs : List Command) :
    { s with pending := cs }.Inv cap :=
  ⟨h.cursor_le, h.uncaptured, h.fits, h.not_raised⟩

/-- Capturing a program that fits keeps the invariant. -/
theorem State.Inv.capture {cap : Nat} {s : State} {ws : List InstrWord} (h : s.Inv cap) (hfits : ws.length ≤ cap) :
    (capture ws s).Inv cap :=
  ⟨Nat.zero_le _, (nomatch ·), hfits, h.not_raised⟩

/-- STEP after the capture moves the cursor only past an entry there is (R20). -/
theorem stepEntry_keeps_inv {cap : Nat} {s t : State} (h : s.Inv cap) (hcap : s.captured = true)
    (hstep : stepEntry s = .next t) : t.Inv cap := by
  rcases stepEntry_cases s with ⟨-, he⟩ | ⟨w, hw, -, he⟩ | ⟨w, -, -, he⟩
  · obtain rfl := next_unique he hstep
    exact h.respond ⟨rfl, rfl, rfl⟩
  · obtain rfl := next_unique he hstep
    obtain ⟨hlt, -⟩ := List.getElem?_eq_some_iff.1 hw
    exact ⟨hlt, fun huncaptured => absurd (hcap.symm.trans huncaptured) (by decide), h.fits, rfl⟩
  · obtain rfl := next_unique he hstep
    exact h.respond ⟨rfl, rfl, rfl⟩

theorem serve_keeps_inv {cap : Nat} {c : Command} {s t : State} (h : s.Inv cap) (hserve : serve cap c s = .next t) :
    t.Inv cap := by
  cases c with
  | exec w =>
    cases hv : isValidWord w with
    | true =>
      obtain rfl := next_unique (serveExec_valid hv s) hserve
      exact h.respond ⟨rfl, rfl, rfl⟩
    | false =>
      obtain rfl := next_unique (serveExec_illegal hv s) hserve
      exact h.respond ⟨rfl, rfl, rfl⟩
  | run ws =>
    rcases serveRun_cases (length_le_of_serveRun_next hserve) s with ⟨-, hrun⟩ | ⟨pre, w, post, -, -, -, hrun⟩
    · obtain rfl := next_unique hrun hserve
      exact h.respond ⟨rfl, rfl, rfl⟩
    · obtain rfl := next_unique hrun hserve
      exact h.respond ⟨rfl, rfl, rfl⟩
  | step ws =>
    cases hcap : s.captured with
    | true => exact stepEntry_keeps_inv h hcap ((serveStep_of_captured cap ws s hcap).symm.trans hserve)
    | false =>
      have hfits : ws.length ≤ cap := (captured_or_length_le_of_serveStep_next hserve).resolve_left (by simp [hcap])
      exact stepEntry_keeps_inv (h.capture hfits) rfl ((serveStep_of_not_captured hfits s hcap).symm.trans hserve)
  | reset =>
    obtain rfl := Host.Outcome.next.inj hserve
    exact ⟨Nat.zero_le _, fun _ => ⟨rfl, rfl⟩, Nat.zero_le _, rfl⟩
  | snapshot =>
    obtain rfl := Host.Outcome.next.inj hserve
    exact h.respond ⟨rfl, rfl, rfl⟩

theorem stepWith_keeps_inv {cap : Nat} {s t : State} (h : s.Inv cap) (hstep : stepWith cap s = .next t) : t.Inv cap := by
  cases hp : s.pending with
  | nil =>
    obtain rfl := next_unique (stepWith_idle cap hp) hstep
    exact h
  | cons c rest => exact serve_keeps_inv (h.with_pending rest) ((stepWith_pending cap hp).symm.trans hstep)

/-! ### Where the model stops (log 1) -/

theorem serveRun_of_overlong {cap : Nat} {ws : List InstrWord} (hlong : ¬ ws.length ≤ cap) (s : State) :
    serveRun cap ws s = .fault .programTooLong := by
  simp [serveRun, programFits, hlong]

theorem serveStep_of_overlong {cap : Nat} {ws : List InstrWord} (hlong : ¬ ws.length ≤ cap) {s : State}
    (hcap : s.captured = false) : serveStep cap ws s = .fault .programTooLong := by
  simp [serveStep, programFits, hcap, hlong]

theorem covered_run_iff (cap : Nat) (b : Bool) (ws : List InstrWord) :
    (Command.run ws).covered cap b = true ↔ ws.length ≤ cap := by
  simp [Command.covered, programFits]

theorem covered_step_iff (cap : Nat) (b : Bool) (ws : List InstrWord) :
    (Command.step ws).covered cap b = true ↔ b = true ∨ ws.length ≤ cap := by
  simp [Command.covered, programFits]

theorem serve_of_covered {cap : Nat} {c : Command} {s : State} (h : c.covered cap s.captured = true) :
    ∃ t, serve cap c s = .next t := by
  cases c with
  | exec w =>
    cases hv : isValidWord w with
    | true => exact ⟨_, serveExec_valid hv s⟩
    | false => exact ⟨_, serveExec_illegal hv s⟩
  | run ws =>
    rcases serveRun_cases ((covered_run_iff ..).1 h) s with ⟨-, hrun⟩ | ⟨pre, w, post, -, -, -, hrun⟩
    · exact ⟨_, hrun⟩
    · exact ⟨_, hrun⟩
  | step ws =>
    obtain ⟨t, hentry, -⟩ := stepEntry_next _
    exact ⟨t, (serveStep_eq_stepEntry ((covered_step_iff ..).1 h)).trans hentry⟩
  | reset => exact ⟨_, rfl⟩
  | snapshot => exact ⟨_, rfl⟩

theorem serve_of_not_covered {cap : Nat} {c : Command} {s : State} (h : c.covered cap s.captured = false) :
    serve cap c s = .fault .programTooLong := by
  rw [Bool.eq_false_iff] at h
  cases c with
  | exec w => exact absurd rfl h
  | run ws => exact serveRun_of_overlong (mt (covered_run_iff ..).2 h) s
  | step ws =>
    obtain ⟨hcap, hlong⟩ := not_or.1 (mt (covered_step_iff ..).2 h)
    exact serveStep_of_overlong hlong (Bool.eq_false_iff.2 hcap)
  | reset => exact absurd rfl h
  | snapshot => exact absurd rfl h

/-! ### What a step does not read (R23; logs 3 and 4) -/

/-- The state with another last response and another raised fault. -/
def State.withTrace (s : State) (r : Option Response) (f : Option Cause) : State := { s with response := r, raised := f }

/-- A response overwrites the last response and the raised fault. -/
theorem respond_withTrace (q : Response) (s : State) (r : Option Response) (f : Option Cause) :
    respond q (s.withTrace r f) = respond q s := rfl

theorem serveExec_withTrace (w : InstrWord) (s : State) (r : Option Response) (f : Option Cause) :
    serveExec w (s.withTrace r f) = serveExec w s := by
  cases hv : isValidWord w with
  | true =>
    rw [serveExec_valid hv, serveExec_valid hv]
    rfl
  | false => rw [serveExec_illegal hv, serveExec_illegal hv, respond_withTrace]

theorem serveRun_withTrace (cap : Nat) (ws : List InstrWord) (s : State) (r : Option Response) (f : Option Cause) :
    serveRun cap ws (s.withTrace r f) = serveRun cap ws s := by
  by_cases hfits : ws.length ≤ cap
  · rcases valid_or_firstIllegal ws with hv | ⟨pre, w, post, rfl, hv, hw⟩
    · rw [serveRun_of_valid hfits hv, serveRun_of_valid hfits hv]
      rfl
    · rw [serveRun_of_illegal hfits hv hw, serveRun_of_illegal hfits hv hw]
      rfl
  · rw [serveRun_of_overlong hfits, serveRun_of_overlong hfits]

theorem stepEntry_withTrace (s : State) (r : Option Response) (f : Option Cause) :
    stepEntry (s.withTrace r f) = stepEntry s := by
  rcases stepEntry_cases s with ⟨hpast, he⟩ | ⟨w, hw, hv, he⟩ | ⟨w, hw, hv, he⟩
  · exact (stepEntry_past (s := s.withTrace r f) hpast).trans he.symm
  · exact (stepEntry_effect (s := s.withTrace r f) hw hv).trans he.symm
  · exact (stepEntry_illegal (s := s.withTrace r f) hw (opField_of_invalid hv)).trans he.symm

theorem serveStep_withTrace (cap : Nat) (ws : List InstrWord) (s : State) (r : Option Response) (f : Option Cause) :
    serveStep cap ws (s.withTrace r f) = serveStep cap ws s := by
  cases hcap : s.captured with
  | true =>
    rw [serveStep_of_captured cap ws s hcap, serveStep_of_captured cap ws (s.withTrace r f) hcap, stepEntry_withTrace]
  | false =>
    by_cases hfits : ws.length ≤ cap
    · rw [serveStep_of_not_captured hfits s hcap, serveStep_of_not_captured hfits (s.withTrace r f) hcap]
      exact stepEntry_withTrace (capture ws s) r f
    · rw [serveStep_of_overlong hfits hcap, serveStep_of_overlong (s := s.withTrace r f) hfits hcap]

theorem serve_withTrace (cap : Nat) (c : Command) (s : State) (r : Option Response) (f : Option Cause) :
    serve cap c (s.withTrace r f) = serve cap c s := by
  cases c with
  | exec w => exact serveExec_withTrace w s r f
  | run ws => exact serveRun_withTrace cap ws s r f
  | step ws => exact serveStep_withTrace cap ws s r f
  | reset => rfl
  | snapshot => rfl

/-! ### The statements -/

/-- Settles O29: every command that answers a next state keeps the invariant. -/
theorem stepKeepsSessionInvariant : Obligations.StepKeepsSessionInvariant :=
  ⟨fun _ _ _ => stepWith_keeps_inv, fun _ _ => stepWith_keeps_inv⟩

/-- Settles O30: the power-on state has an empty program and cursor 0, and presenting changes the pending commands only. -/
theorem powerOnMeetsSessionInvariant : Obligations.PowerOnMeetsSessionInvariant :=
  ⟨fun _ => ⟨Nat.zero_le _, fun _ => ⟨rfl, rfl⟩, Nat.zero_le _, rfl⟩, fun _ _ _ h => h.with_pending _⟩

/-- Settles O23: a command is served or stops the model as it is covered or not; an idle step is safe. -/
theorem stepsStopOnlyOnOverlongPrograms : Obligations.StepsStopOnlyOnOverlongPrograms := by
  intro cap s
  cases hp : s.pending with
  | nil => exact ⟨fun _ => ⟨s, stepWith_idle cap hp⟩, fun hunsafe => by simp [State.safe, hp] at hunsafe⟩
  | cons c rest =>
    have hsafe : s.safe cap = c.covered cap s.captured := by simp [State.safe, hp]
    rw [hsafe, stepWith_pending cap hp]
    exact ⟨serve_of_covered (s := { s with pending := rest }), serve_of_not_covered (s := { s with pending := rest })⟩

/-- Settles O22: no command reads the last response or a raised fault, and each overwrites both. -/
theorem responsesAreNeverRead : Obligations.ResponsesAreNeverRead := by
  intro cap s r f hne
  obtain ⟨c, rest, hp⟩ := List.exists_cons_of_ne_nil hne
  rw [stepWith_pending cap hp, stepWith_pending cap (s := { s with response := r, raised := f }) hp]
  exact serve_withTrace cap c { s with pending := rest } r f

end Sys2Proof.Machine
end

section
/-!
SUPPORT. The spec's own derivations about the ALU and the datapath (40_alu.md R61, R65, 30_encoding.md R52): the signed
reading, reduced immediates, and that an instruction's effect on the bank is a function of the bank.
-/

namespace Sys2Proof.Machine

/-! ### The ALU -/

/-- R61: ADD read as a signed operation wraps into the 16-bit signed range. -/
theorem alu_add_toInt (a b : Word) : (alu .add a b).toInt = (a.toInt + b.toInt).bmod 65536 := by
  rw [alu_add, BitVec.toInt_add]

theorem alu_sub_toInt (a b : Word) : (alu .sub a b).toInt = (a.toInt - b.toInt).bmod 65536 := by
  rw [alu_sub, BitVec.toInt_sub]

/-! ### What an instruction reads -/

theorem sourceValue_congr {s u : State} (h : u.regs = s.regs) (src : Source) : sourceValue src u = sourceValue src s := by
  cases src with
  | reg rs => rw [sourceValue_reg, sourceValue_reg, readReg, readReg, h]
  | imm v => rfl

theorem operate_regs_congr {s u : State} (h : u.regs = s.regs) (op : Op) (rd : Reg) (src : Source) :
    (operate op rd src u).regs = (operate op rd src s).regs := by
  simp only [operate_eq_writeReg, writeReg_regs, sourceValue_congr h, readReg, h]

/-! ### The statements -/

/-- Settles O10: the signed reading of the library's sum and difference, and the datapath's one read and one write. -/
theorem signedReadingAndNoControlAccess : Obligations.SignedReadingAndNoControlAccess := by
  refine ⟨fun a b => ⟨alu_add_toInt a b, alu_sub_toInt a b⟩, fun i s => ?_⟩
  rcases i.eq_ofParts_or_illegal with ⟨op, rd, src, rfl⟩ | ⟨c, rfl⟩
  · exact ⟨_, exec_ofParts op rd src s, ⟨rfl, rfl, rfl⟩, rfl, rfl,
      fun u hu => ⟨_, exec_ofParts op rd src u, operate_regs_congr hu op rd src⟩⟩
  · exact ⟨_, exec_illegal c s, ⟨rfl, rfl, rfl⟩, rfl, rfl, fun u hu => ⟨_, exec_illegal c u, hu⟩⟩

/-- Settles O49: reducing an operand first does not change a sum or a difference modulo 2^16. -/
theorem immediateReductionLosesNothing : Obligations.ImmediateReductionLosesNothing := by
  refine fun a v => ⟨?_, ?_, ?_⟩
  · rw [alu_mov, BitVec.toNat_ofNat]
  · rw [alu_add_toNat, BitVec.toNat_ofNat, Nat.add_mod_mod]
  · rw [alu_sub_toNat, BitVec.toNat_ofNat]
    omega

end Sys2Proof.Machine
end
